-- ==== Sys2Proof/Syntax.lean ====
section
/-!
DEFINITION. The 21 commands of the command set FWUAS-1 (R54), one constructor per row of `spec/opcode_table.json`,
with the operands of R52. A constructor's arguments stand in the order of the listing syntax of R57 (destination
first), each named by its field of the command word.
-/

namespace Sys2Proof

/-- The index of a wide register `v0` .. `v7` (R11). The two register files are separate (R13). -/
abbrev VReg := Fin 8

/-- The index of a word register `s0` .. `s7` (R12). -/
abbrev SReg := Fin 8

/-- A command (R54). -/
inductive Instr where
  /-- `CZERO vd` (R71). -/
  | czero (rd : VReg)
  /-- `CONE vd` (R72). -/
  | cone (rd : VReg)
  /-- `CTWO vd` (R73). -/
  | ctwo (rd : VReg)
  /-- `CTHREE vd` (R74). -/
  | cthree (rd : VReg)
  /-- `FROMW vd, sa` (R75). -/
  | fromw (rd : VReg) (ra : SReg)
  /-- `ISZ va` (R76). -/
  | isz (ra : VReg)
  /-- `LOWB va` (R77). -/
  | lowb (ra : VReg)
  /-- `EQU va, vb` (R81). -/
  | equ (ra rb : VReg)
  /-- `CMP va, vb` (R82). -/
  | cmp (ra rb : VReg)
  /-- `ADDW vd, va, sb` (R89). -/
  | addw (rd ra : VReg) (rb : SReg)
  /-- `ADD vd, va, vb` (R90). -/
  | add (rd ra rb : VReg)
  /-- `SUB vd, va, vb` (R91). -/
  | sub (rd ra rb : VReg)
  /-- `SHL vd, va, sb` (R98). -/
  | shl (rd ra : VReg) (rb : SReg)
  /-- `SHR vd, va, sb` (R99). -/
  | shr (rd ra : VReg) (rb : SReg)
  /-- `SHLI vd, va, imm8` (R100). -/
  | shli (rd ra : VReg) (imm8 : BitVec 8)
  /-- `SHRI vd, va, imm8` (R101). -/
  | shri (rd ra : VReg) (imm8 : BitVec 8)
  /-- `EGCD sx, sy, sa, sb` with `sx = rd`, `sy = rc` (R107). -/
  | egcd (rd rc ra rb : SReg)
  /-- `MINV sd, sa` (R110). -/
  | minv (rd ra : SReg)
  /-- `MMUL vd, va, vb, vn, sm` with `vn = rc`, `sm = re` (R120). -/
  | mmul (rd ra rb rc : VReg) (re : SReg)
  /-- `MCONV vd, vn` with `vn = rc` (R123). -/
  | mconv (rd rc : VReg)
  /-- `POWM vd, va, vb, vn` with `vn = rc` (R132). -/
  | powm (rd ra rb rc : VReg)
deriving DecidableEq, Repr

/-- The pseudo-command `MOV vd, va`: an exact synonym of `SHLI vd, va, 0` (R58). -/
def Instr.mov (rd ra : VReg) : Instr := .shli rd ra 0

/-- The pseudo-command `MSQR vd, va, vn, sm`: an exact synonym of `MMUL vd, va, va, vn, sm` (R58). -/
def Instr.msqr (rd ra rc : VReg) (re : SReg) : Instr := .mmul rd ra ra rc re

end Sys2Proof
end

