-- ==== Sys2Proof/WellFormed.lean ====
section
/-!
DEFINITION. Which commands are well formed. Register indices and the immediate are in range by their types; the one
restriction left is EGCD's (R55, R107): its two destinations must differ.
-/

namespace Sys2Proof

/-- A command has a legal command word iff it is not an EGCD with `rd = rc` (R55, R107). -/
def Instr.wellFormed : Instr → Bool
  | .egcd rd rc _ _ => decide (rd ≠ rc)
  | .czero _ => true
  | .cone _ => true
  | .ctwo _ => true
  | .cthree _ => true
  | .fromw _ _ => true
  | .isz _ => true
  | .lowb _ => true
  | .equ _ _ => true
  | .cmp _ _ => true
  | .addw _ _ _ => true
  | .add _ _ _ => true
  | .sub _ _ _ => true
  | .shl _ _ _ => true
  | .shr _ _ _ => true
  | .shli _ _ _ => true
  | .shri _ _ _ => true
  | .minv _ _ => true
  | .mmul _ _ _ _ _ => true
  | .mconv _ _ => true
  | .powm _ _ _ _ => true

end Sys2Proof
end

