-- ==== Sys2Proof/Decode.lean ====
section
/-!
DEFINITION. The decoder of command words (R51 to R55), total on every 32-bit word and rejecting by name, the encoder
written from the same tables, and the `match`/`mask` table of `spec/opcode_table.json` (R54).
-/

namespace Sys2Proof

/-- `x[hi:lo]` of R8: `(x div 2^lo) mod 2^(hi-lo+1)`. -/
def bitField (x : BitVec 32) (hi lo : Nat) : Nat := x.toNat / 2 ^ lo % 2 ^ (hi - lo + 1)

/-- The opcodes of R54. -/
inductive Opcode where
  | czero | cone | ctwo | cthree | fromw | isz | lowb | equ | cmp | addw | add | sub
  | shl | shr | shli | shri | egcd | minv | mmul | mconv | powm
deriving DecidableEq, Repr

/-- The `op` byte of a command (R54). -/
def Opcode.byte : Opcode → Nat
  | .czero => 0x01
  | .cone => 0x02
  | .ctwo => 0x03
  | .cthree => 0x04
  | .fromw => 0x05
  | .isz => 0x08
  | .lowb => 0x09
  | .equ => 0x0A
  | .cmp => 0x0B
  | .addw => 0x10
  | .add => 0x11
  | .sub => 0x12
  | .shl => 0x18
  | .shr => 0x19
  | .shli => 0x1A
  | .shri => 0x1B
  | .egcd => 0x20
  | .minv => 0x21
  | .mmul => 0x28
  | .mconv => 0x29
  | .powm => 0x30

/-- The 21 opcodes in the order of R54. -/
def Opcode.all : List Opcode :=
  [.czero, .cone, .ctwo, .cthree, .fromw, .isz, .lowb, .equ, .cmp, .addw, .add, .sub,
   .shl, .shr, .shli, .shri, .egcd, .minv, .mmul, .mconv, .powm]

/-- The opcode with a given `op` byte, if the byte is one of the 21 values of R54. -/
def Opcode.ofByte (n : Nat) : Option Opcode := Opcode.all.find? fun o => o.byte == n

/-- Which of the four register fields a command uses (R52). -/
structure FieldUse where
  /-- `rd`, bits 22:20. -/
  rd : Bool
  /-- `ra`, bits 18:16. -/
  ra : Bool
  /-- `rb`, bits 14:12. -/
  rb : Bool
  /-- `rc`, bits 10:8. -/
  rc : Bool
deriving DecidableEq, Repr

/-- The table of R52; a field marked `-` there is `false` here. -/
def Opcode.uses : Opcode → FieldUse
  | .czero | .cone | .ctwo | .cthree => ⟨true, false, false, false⟩
  | .fromw => ⟨true, true, false, false⟩
  | .isz | .lowb => ⟨false, true, false, false⟩
  | .equ | .cmp => ⟨false, true, true, false⟩
  | .addw | .add | .sub | .shl | .shr => ⟨true, true, true, false⟩
  | .shli | .shri => ⟨true, true, false, false⟩
  | .egcd => ⟨true, true, true, true⟩
  | .minv => ⟨true, true, false, false⟩
  | .mmul => ⟨true, true, true, true⟩
  | .mconv => ⟨true, false, false, true⟩
  | .powm => ⟨true, true, true, true⟩

/-- Why a command word is illegal (R55); each of them is the cause `ILLEGAL_COMMAND`. -/
inductive DecodeError where
  /-- `op` is not one of the 21 values of R54. -/
  | unassignedOpcode
  /-- Bit 23, 19, 15 or 11 is 1. -/
  | mustBeZeroBit
  /-- A register field the command does not use is not 0. -/
  | unusedField
  /-- Bits 7:0 are not what the command allows. -/
  | lowByte
  /-- EGCD with `rd = rc`. -/
  | equalDestinations
deriving DecidableEq, Repr

/-- Bits 23, 19, 15 and 11 are 0 (R51, R55). -/
def mustBeZeroBitsClear (c : BitVec 32) : Bool :=
  bitField c 23 23 == 0 && bitField c 19 19 == 0 && bitField c 15 15 == 0 && bitField c 11 11 == 0

/-- Every register field marked `-` for this opcode in R52 is 0 (R55). -/
def unusedFieldsClear (o : Opcode) (c : BitVec 32) : Bool :=
  (o.uses.rd || bitField c 22 20 == 0) && (o.uses.ra || bitField c 18 16 == 0) &&
  (o.uses.rb || bitField c 14 12 == 0) && (o.uses.rc || bitField c 10 8 == 0)

/-- Bits 7:0 are allowed (R51, R55): for MMUL bit 7 and bits 3:0 are 0, for SHLI and SHRI anything, else 0. -/
def lowByteAllowed (o : Opcode) (c : BitVec 32) : Bool :=
  match o with
  | .mmul => bitField c 7 7 == 0 && bitField c 3 0 == 0
  | .shli | .shri => true
  | _ => bitField c 7 0 == 0

/-- A three-bit field as a register index. -/
def regOf (n : Nat) : Fin 8 := Fin.ofNat 8 n

/-- The command an opcode spells with the fields of a word (R52). -/
def assemble (o : Opcode) (c : BitVec 32) : Instr :=
  let rd := regOf (bitField c 22 20)
  let ra := regOf (bitField c 18 16)
  let rb := regOf (bitField c 14 12)
  let rc := regOf (bitField c 10 8)
  let re := regOf (bitField c 6 4)
  let imm8 := BitVec.ofNat 8 (bitField c 7 0)
  match o with
  | .czero => .czero rd
  | .cone => .cone rd
  | .ctwo => .ctwo rd
  | .cthree => .cthree rd
  | .fromw => .fromw rd ra
  | .isz => .isz ra
  | .lowb => .lowb ra
  | .equ => .equ ra rb
  | .cmp => .cmp ra rb
  | .addw => .addw rd ra rb
  | .add => .add rd ra rb
  | .sub => .sub rd ra rb
  | .shl => .shl rd ra rb
  | .shr => .shr rd ra rb
  | .shli => .shli rd ra imm8
  | .shri => .shri rd ra imm8
  | .egcd => .egcd rd rc ra rb
  | .minv => .minv rd ra
  | .mmul => .mmul rd ra rb rc re
  | .mconv => .mconv rd rc
  | .powm => .powm rd ra rb rc

/-- Decoding of a command word (R55): total, every word spells exactly one command or is illegal by name. -/
def decode (c : BitVec 32) : Except DecodeError Instr :=
  match Opcode.ofByte (bitField c 31 24) with
  | none => .error .unassignedOpcode
  | some o =>
    if mustBeZeroBitsClear c = false then .error .mustBeZeroBit
    else if unusedFieldsClear o c = false then .error .unusedField
    else if lowByteAllowed o c = false then .error .lowByte
    else if o = .egcd ∧ bitField c 22 20 = bitField c 10 8 then .error .equalDestinations
    else .ok (assemble o c)

/-- The opcode of a command (R54). -/
def Instr.opcode : Instr → Opcode
  | .czero _ => .czero
  | .cone _ => .cone
  | .ctwo _ => .ctwo
  | .cthree _ => .cthree
  | .fromw _ _ => .fromw
  | .isz _ => .isz
  | .lowb _ => .lowb
  | .equ _ _ => .equ
  | .cmp _ _ => .cmp
  | .addw _ _ _ => .addw
  | .add _ _ _ => .add
  | .sub _ _ _ => .sub
  | .shl _ _ _ => .shl
  | .shr _ _ _ => .shr
  | .shli _ _ _ => .shli
  | .shri _ _ _ => .shri
  | .egcd _ _ _ _ => .egcd
  | .minv _ _ => .minv
  | .mmul _ _ _ _ _ => .mmul
  | .mconv _ _ => .mconv
  | .powm _ _ _ _ => .powm

/-- The one layout of R51: `op` 31:24, `rd` 22:20, `ra` 18:16, `rb` 14:12, `rc` 10:8, `lo8` 7:0, the rest 0. -/
def packCommand (o : Opcode) (rd ra rb rc : Fin 8) (lo8 : Nat) : BitVec 32 :=
  BitVec.ofNat 32
    (o.byte * 2 ^ 24 + rd.val * 2 ^ 20 + ra.val * 2 ^ 16 + rb.val * 2 ^ 12 + rc.val * 2 ^ 8 + lo8)

/-- The command word of a command (R51, R52, R54): unused fields are 0. -/
def encode : Instr → BitVec 32
  | .czero rd => packCommand .czero rd 0 0 0 0
  | .cone rd => packCommand .cone rd 0 0 0 0
  | .ctwo rd => packCommand .ctwo rd 0 0 0 0
  | .cthree rd => packCommand .cthree rd 0 0 0 0
  | .fromw rd ra => packCommand .fromw rd ra 0 0 0
  | .isz ra => packCommand .isz 0 ra 0 0 0
  | .lowb ra => packCommand .lowb 0 ra 0 0 0
  | .equ ra rb => packCommand .equ 0 ra rb 0 0
  | .cmp ra rb => packCommand .cmp 0 ra rb 0 0
  | .addw rd ra rb => packCommand .addw rd ra rb 0 0
  | .add rd ra rb => packCommand .add rd ra rb 0 0
  | .sub rd ra rb => packCommand .sub rd ra rb 0 0
  | .shl rd ra rb => packCommand .shl rd ra rb 0 0
  | .shr rd ra rb => packCommand .shr rd ra rb 0 0
  | .shli rd ra imm8 => packCommand .shli rd ra 0 0 imm8.toNat
  | .shri rd ra imm8 => packCommand .shri rd ra 0 0 imm8.toNat
  | .egcd rd rc ra rb => packCommand .egcd rd ra rb rc 0
  | .minv rd ra => packCommand .minv rd ra 0 0 0
  | .mmul rd ra rb rc re => packCommand .mmul rd ra rb rc (re.val * 2 ^ 4)
  | .mconv rd rc => packCommand .mconv rd 0 0 rc 0
  | .powm rd ra rb rc => packCommand .powm rd ra rb rc 0

/-- The instruction the decoder reads from an instruction of `nbits` bits `w` (a command is one 32-bit word, R50;
bits above `nbits` are 0). -/
def decodeTableWord (nbits w : Nat) : Option Instr :=
  (decode (BitVec.ofNat 32 (w % 2 ^ nbits))).toOption

/-- A row of `spec/opcode_table.json`: a word `c` spells it iff `c AND mask = pattern` (R54). -/
structure TableRow where
  /-- The row's opcode. -/
  opcode : Opcode
  /-- The values of the fixed bits (the `match` column). -/
  pattern : BitVec 32
  /-- Which bits are fixed. -/
  mask : BitVec 32
deriving DecidableEq, Repr

/-- The `match` and `mask` columns of `spec/opcode_table.json` (R54). -/
def opcodeTable : List TableRow :=
  [ ⟨.czero, 0x01000000, 0xFF8FFFFF⟩
  , ⟨.cone, 0x02000000, 0xFF8FFFFF⟩
  , ⟨.ctwo, 0x03000000, 0xFF8FFFFF⟩
  , ⟨.cthree, 0x04000000, 0xFF8FFFFF⟩
  , ⟨.fromw, 0x05000000, 0xFF88FFFF⟩
  , ⟨.isz, 0x08000000, 0xFFF8FFFF⟩
  , ⟨.lowb, 0x09000000, 0xFFF8FFFF⟩
  , ⟨.equ, 0x0A000000, 0xFFF88FFF⟩
  , ⟨.cmp, 0x0B000000, 0xFFF88FFF⟩
  , ⟨.addw, 0x10000000, 0xFF888FFF⟩
  , ⟨.add, 0x11000000, 0xFF888FFF⟩
  , ⟨.sub, 0x12000000, 0xFF888FFF⟩
  , ⟨.shl, 0x18000000, 0xFF888FFF⟩
  , ⟨.shr, 0x19000000, 0xFF888FFF⟩
  , ⟨.shli, 0x1A000000, 0xFF88FF00⟩
  , ⟨.shri, 0x1B000000, 0xFF88FF00⟩
  , ⟨.egcd, 0x20000000, 0xFF8888FF⟩
  , ⟨.minv, 0x21000000, 0xFF88FFFF⟩
  , ⟨.mmul, 0x28000000, 0xFF88888F⟩
  , ⟨.mconv, 0x29000000, 0xFF8FF8FF⟩
  , ⟨.powm, 0x30000000, 0xFF8888FF⟩ ]

/-- A word spells a row of the table (R54). -/
def TableRow.spells (row : TableRow) (c : BitVec 32) : Bool := c &&& row.mask == row.pattern

end Sys2Proof
end

