-- ==== Sys2Proof/Word.lean ====
section
/-!
DEFINITION. The data of the block: a word of `BITS` bits (R8, R9) and a wide value, an ordered sequence of `W`
words, word 0 least significant (R11). Words are bit vectors, so every word operation is unsigned and wraps modulo
`B = 2^BITS`: `wadd`, `wsub`, `wmul`, `wneg`, `wnot` of R8 are `+`, `-`, `*`, unary `-` and `~~~` on `Word bits`.
-/

namespace Sys2Proof

/-- A word: an unsigned integer in `[0, 2^bits)`, the atomic unit of the multi-word representation (R8, R9). -/
abbrev Word (bits : Nat) := BitVec bits

/-- A wide value (R11): exactly `w` words, index 0 least significant. Every such sequence is a valid value. -/
structure Wide (bits w : Nat) where
  /-- The words, least significant first. -/
  words : List (Word bits)
  /-- The word count is `w` for the life of the value. -/
  length_eq : words.length = w
deriving DecidableEq, Repr

end Sys2Proof
end

