-- ==== Sys2Proof/Config.lean ====
section
/-!
DEFINITION. What an implementation fixes: the OPEN parameters `BITS` and `W` (R7), and the values the spec leaves
unspecified after a `RESET` operation (R24, R170), as opaque free values.
-/

namespace Sys2Proof

/-- The admitted word widths (R7, decision D2): `BITS` is one of 8, 16, 32, 64. -/
inductive WordWidth where
  | b8
  | b16
  | b32
  | b64
deriving DecidableEq, Repr

/-- `BITS`, the width of one word in bits (R7). -/
def WordWidth.bits : WordWidth → Nat
  | .b8 => 8
  | .b16 => 16
  | .b32 => 32
  | .b64 => 64

/-- The parameters of one block (R7): the word width and the word count `W >= 1`, both fixed for the life of the
block. DESIGN CHOICE (log 1): State carries them, so every statement about all states ranges over all of them. -/
structure Params where
  /-- The word width. -/
  width : WordWidth
  /-- `W`, the number of words of a wide value. -/
  words : Nat
  /-- `W >= 1` (R7). -/
  words_pos : 0 < words
deriving DecidableEq, Repr

/-- `BITS` (R7). -/
abbrev Params.bits (p : Params) : Nat := p.width.bits

/-- The word base `B = 2^BITS` (R7). -/
def Params.base (p : Params) : Nat := 2 ^ p.bits

/-- The wide modulus and Montgomery radix `R = 2^(W*BITS)` (R7). -/
def Params.radix (p : Params) : Nat := 2 ^ (p.words * p.bits)

/-- The reference instance of `93_implementation_defined.md` section 3: `BITS = 64`, `W = 2`. -/
def Params.reference : Params := ⟨.b64, 2, by decide⟩

/-- FREE VALUE (log 4): word `j` of wide register `r` after the `n`-th `RESET` operation, for words of `bits` bits.
The spec leaves it unspecified (R24, R170, U1), possibly different at each reset. -/
opaque Config.resetWideWord (bits n r j : Nat) : Word bits

/-- FREE VALUE (log 4): word register `r` after the `n`-th `RESET` operation, for words of `bits` bits (R24, R170). -/
opaque Config.resetWord (bits n r : Nat) : Word bits

end Sys2Proof
end

