-- ==== Sys2Proof/Machine/WideValue.lean ====
section
/-!
DEFINITION. A wide value as a number and as words (R8, R11, R35): `Value(a) = sum of a[j] * B^j`, word 0 least
significant, and the access to one word that the host port uses (R32).
-/

namespace Sys2Proof

/-- `sum over j of l[j] * B^j` with `B = 2^bits`, word 0 first in the list (R8, R11). -/
def wordsValue {bits : Nat} : List (Word bits) → Nat
  | [] => 0
  | x :: xs => x.toNat + 2 ^ bits * wordsValue xs

/-- `Value(a)` (R8, R11): the unsigned integer in `[0, R)` that a wide value stands for. -/
def Wide.value {bits w : Nat} (a : Wide bits w) : Nat := wordsValue a.words

/-- The first `count` words of a number, least significant first: word `j` is `(n div B^j) mod B` (R8). -/
def wordsOfNat {bits : Nat} : (count n : Nat) → List (Word bits)
  | 0, _ => []
  | count + 1, n => BitVec.ofNat bits n :: wordsOfNat count (n / 2 ^ bits)

theorem length_wordsOfNat {bits : Nat} (count n : Nat) :
    (wordsOfNat count n : List (Word bits)).length = count := by
  induction count generalizing n with
  | zero => rfl
  | succ count ih => simp [wordsOfNat, ih]

/-- The wide value of `n mod R` (R8). -/
def Wide.ofNat {bits w : Nat} (n : Nat) : Wide bits w := ⟨wordsOfNat w n, length_wordsOfNat w n⟩

/-- The first `count` words of a list, zero words where the list is shorter. -/
def takeWords {bits : Nat} : (count : Nat) → List (Word bits) → List (Word bits)
  | 0, _ => []
  | count + 1, [] => 0 :: takeWords count []
  | count + 1, x :: xs => x :: takeWords count xs

theorem length_takeWords {bits : Nat} (count : Nat) (l : List (Word bits)) :
    (takeWords count l).length = count := by
  induction count generalizing l with
  | zero => rfl
  | succ count ih => cases l <;> simp [takeWords, ih]

/-- The wide value whose words are the given ones, least significant first. -/
def Wide.ofWords {bits w : Nat} (l : List (Word bits)) : Wide bits w := ⟨takeWords w l, length_takeWords w l⟩

/-- `a[j]`, word `j` of a wide value (R8). -/
def Wide.word {bits w : Nat} (a : Wide bits w) (j : Nat) : Word bits := a.words.getD j 0

/-- The wide value with word `j` replaced, the other `W - 1` words unchanged (R32). -/
def Wide.setWord {bits w : Nat} (a : Wide bits w) (j : Nat) (x : Word bits) : Wide bits w :=
  ⟨a.words.set j x, by rw [List.length_set]; exact a.length_eq⟩

end Sys2Proof
end

