-- ==== Sys2Proof/Machine/State.lean ====
section
/-!
DEFINITION. The state of one block (R10), the host port operations (R31), the reasons a step could stop, and the
state after reset (R24, R170).
-/

namespace Sys2Proof.Machine

/-- A host port operation (R31), for words of `bits` bits. Indices are any numbers: out of range they fault (R36);
data is a word, wider data cannot be expressed (R36). -/
inductive PortOp (bits : Nat) where
  /-- `WRV r, j, data`: write word `j` of wide register `r` (R32). -/
  | wrv (r j : Nat) (data : Word bits)
  /-- `RDV r, j`: read word `j` of wide register `r` (R32). -/
  | rdv (r j : Nat)
  /-- `WRS r, data`: write a word register (R33). -/
  | wrs (r : Nat) (data : Word bits)
  /-- `RDS r`: read a word register (R33). -/
  | rds (r : Nat)
  /-- `RDC k`: read a CSR (R34). -/
  | rdc (k : Nat)
  /-- A write to CSR `k`: a forbidden direction, it only faults (R15, R36; log 7). -/
  | wrc (k : Nat) (data : BitVec 32)
  /-- `ISSUE cmd`: execute one command word (R37). -/
  | issue (cmd : BitVec 32)
  /-- `RESET` (R170). -/
  | reset
deriving DecidableEq, Repr

/-- What a port operation returns to the host. -/
inductive PortAnswer (bits : Nat) where
  /-- The operation returns no value (writes, `ISSUE`, `RESET`; R37). -/
  | none
  /-- The word that `RDV` or `RDS` returns (R32, R33, R36). -/
  | word (x : Word bits)
  /-- The 32 bits that `RDC` returns (R34, R36). -/
  | csr (x : BitVec 32)
deriving DecidableEq, Repr

/-- The fault causes of R151. They are recorded in `FSTAT` and end no step of the model. -/
inductive Cause where
  /-- 1: a word that fails the decode of R55. -/
  | illegalCommand
  /-- 2: a shift amount `>= BITS` (R97). -/
  | shiftRange
  /-- 3: an even modulus to MINV, MMUL, MCONV or POWM. -/
  | evenModulus
  /-- 4: MMUL with `wmul(mc, n[0]) != B - 1` (R120). -/
  | badMc
  /-- 5: a port index out of range, or a write to a CSR (R36). -/
  | portAccess
deriving DecidableEq, Repr

/-- The state of one block: the registers of R10 and, as the model's own fields, the block's parameters (log 1),
the host's pending operations (log 5), the last answer to the host (log 6) and a reset counter (log 4). -/
structure State where
  /-- The parameters `BITS` and `W` (R7): fixed, no step changes them (log 1). -/
  params : Params
  /-- The wide registers `v[0..7]` (R11). -/
  v : Vector (Wide params.bits params.words) 8
  /-- The word registers `s[0..7]` (R12). -/
  s : Vector (Word params.bits) 8
  /-- CSR 0, `FLAGS` (R16). -/
  flags : BitVec 32
  /-- CSR 1, `FSTAT` (R18). -/
  fstat : BitVec 32
  /-- CSR 2, `FCMD` (R19). -/
  fcmd : BitVec 32
  /-- CSR 3, `CCNT` (R21). -/
  ccnt : BitVec 32
  /-- MODEL: the host's pending port operations, oldest first (log 5). -/
  port : List (PortOp params.bits)
  /-- MODEL: what the last performed port operation returned to the host (log 6). -/
  answer : PortAnswer params.bits
  /-- MODEL: how many `RESET` operations were performed; indexes the free values of log 4. -/
  resets : Nat
deriving DecidableEq, Repr

/-- Reasons a step ends in a model fault: there are none. Every fault of the spec is the sticky faulted state of
R153 and R155, a next state in which the block goes on answering its host (log 10). Safe: nothing is cut short. -/
inductive Fault where
deriving DecidableEq, Repr

/-- Reasons a step is refused. -/
inductive Refusal where
  /-- An instruction without a meaning, raised by `exec`'s arm for it: no arm raises it, all 21 commands have
  their meaning. Safe: it would only stop a run. -/
  | notModelled (mnemonic : String)
deriving DecidableEq, Repr

/-- The block right after reset, for given parameters: the CSRs 0 (R24, R170), the data registers 0 (DESIGN CHOICE,
log 2 and log 3: R24 leaves them unspecified), no operation pending (log 5). -/
def State.resetWith (p : Params) : State where
  params := p
  v := Vector.replicate 8 ⟨List.replicate p.words 0, List.length_replicate⟩
  s := Vector.replicate 8 0
  flags := 0
  fstat := 0
  fcmd := 0
  ccnt := 0
  port := []
  answer := .none
  resets := 0

/-- The machine right after reset (R24, R170), as the reference instance `BITS = 64`, `W = 2` (log 1). -/
def State.reset : State := State.resetWith Params.reference

end Sys2Proof.Machine
end

