-- ==== Sys2Proof/Machine/Flags.lean ====
section
/-!
DEFINITION. The fields of `FLAGS` (R16) and `FSTAT` (R18): each predicate command writes exactly one field of
`FLAGS` (R17), a fault writes `F` and `CAUSE`.
-/

namespace Sys2Proof.Machine

/-- The register with bits `hi..lo` replaced by `x` (taken modulo the field's size), all other bits as they were. -/
def setBitField (r : BitVec 32) (hi lo x : Nat) : BitVec 32 :=
  BitVec.ofNat 32
    (r.toNat / 2 ^ (hi + 1) * 2 ^ (hi + 1) + x % 2 ^ (hi - lo + 1) * 2 ^ lo + r.toNat % 2 ^ lo)

/-- A truth value as the bit 1 or 0. -/
def bitOf (b : Bool) : Nat := if b then 1 else 0

/-- `FLAGS.Z`, bit 0 (R16). -/
def flagZ (r : BitVec 32) : Nat := bitField r 0 0

/-- `FLAGS.L`, bit 1 (R16). -/
def flagL (r : BitVec 32) : Nat := bitField r 1 1

/-- `FLAGS.E`, bit 2 (R16). -/
def flagE (r : BitVec 32) : Nat := bitField r 2 2

/-- `FLAGS.ORD`, bits 4:3 (R16): 0 Equal, 1 Less, 2 Greater. -/
def flagOrd (r : BitVec 32) : Nat := bitField r 4 3

/-- `FLAGS.Z <- b` (R16, R76). -/
def setFlagZ (r : BitVec 32) (b : Bool) : BitVec 32 := setBitField r 0 0 (bitOf b)

/-- `FLAGS.L <- b` (R16, R77). -/
def setFlagL (r : BitVec 32) (b : Bool) : BitVec 32 := setBitField r 1 1 (bitOf b)

/-- `FLAGS.E <- b` (R16, R81). -/
def setFlagE (r : BitVec 32) (b : Bool) : BitVec 32 := setBitField r 2 2 (bitOf b)

/-- The code of an ordering in `FLAGS.ORD` (R16, R82): Equal 0, Less 1, Greater 2. -/
def ordCode : Ordering → Nat
  | .eq => 0
  | .lt => 1
  | .gt => 2

/-- `FLAGS.ORD <- code` (R16, R82). -/
def setFlagOrd (r : BitVec 32) (o : Ordering) : BitVec 32 := setBitField r 4 3 (ordCode o)

/-- The cause codes of R151. -/
def Cause.code : Cause → Nat
  | .illegalCommand => 1
  | .shiftRange => 2
  | .evenModulus => 3
  | .badMc => 4
  | .portAccess => 5

/-- `FSTAT.F`, bit 0 (R18). -/
def statusF (r : BitVec 32) : Nat := bitField r 0 0

/-- `FSTAT.CAUSE`, bits 7:4 (R18). -/
def statusCause (r : BitVec 32) : Nat := bitField r 7 4

/-- `FSTAT.F <- 1; FSTAT.CAUSE <- cause` (R153). -/
def setFault (r : BitVec 32) (c : Cause) : BitVec 32 := setBitField (setBitField r 0 0 1) 7 4 c.code

end Sys2Proof.Machine
end

