-- ==== Sys2Proof/Machine/Operands.lean ====
section
/-!
DEFINITION. The operand forms of R52: whole wide registers, word registers, and the immediate of R53; and the words
of the wide registers as the host port reaches them (R32).
-/

namespace Sys2Proof.Machine

/-- `v[i]`, read as a whole wide value (R8, R11). No register is hardwired (R13). -/
def State.readV (s : State) (r : VReg) : Wide s.params.bits s.params.words := s.v[r.val]

/-- `v[i] <- val`, all `W` words (R8, R11). -/
def State.writeV (s : State) (r : VReg) (x : Wide s.params.bits s.params.words) : State :=
  { s with v := s.v.set r x }

/-- `s[i]` (R8, R12). -/
def State.readS (s : State) (r : SReg) : Word s.params.bits := s.s[r.val]

/-- `s[i] <- w` (R8, R12). -/
def State.writeS (s : State) (r : SReg) (x : Word s.params.bits) : State :=
  { s with s := s.s.set r x }

/-- The shift amount of SHL and SHR: the whole word `s[rb]`, unsigned, not reduced (R53, R97). -/
def State.amountReg (s : State) (r : SReg) : Nat := (s.readS r).toNat

/-- The shift amount of SHLI and SHRI: `zext(imm8)`, not reduced (R53, R97). -/
def amountImm (imm8 : BitVec 8) : Nat := imm8.toNat

/-- Word 0 of a wide register: the word whose parity the modulus checks look at (R120, R123, R132). -/
def State.lowWord (s : State) (r : VReg) : Word s.params.bits := (s.readV r).word 0

end Sys2Proof.Machine
end

