-- ==== Sys2Proof/Machine/Ops.lean ====
section
/-!
DEFINITION. The operations every command shares: the faulted state, fault entry (the block's only exception, R153),
the return from it (`RESET`, R156, R170), completion, and the frame of a command (R14, R37, R153, R155).
-/

namespace Sys2Proof.Machine

/-- `FSTAT.F = 1`: the block is faulted (R18, R155). -/
def State.faulted (s : State) : Bool := statusF s.fstat == 1

/-- The level output `fault_o`, equal to `FSTAT.F` at all times (R18, R158). -/
def State.faultO (s : State) : Bool := s.faulted

/-- TAKING A FAULT (R153): `F <- 1`, `CAUSE <- cause`, `FCMD <- word`, nothing else. While the block is already
faulted nothing is recorded: the first cause is kept (R155). -/
def raiseFault (c : Cause) (word : BitVec 32) (s : State) : State :=
  if s.faulted then s else { s with fstat := setFault s.fstat c, fcmd := word }

/-- THE RETURN (R156, R170): a `RESET` operation. The four CSRs become 0, every data register is unspecified (free
values, log 4), the parameters stay (R23); so do the operations the host has yet to perform (log 5). -/
def resetBlock (s : State) : State :=
  { s with
    v := Vector.ofFn fun r : Fin 8 =>
      Wide.ofWords ((List.range s.params.words).map (Config.resetWideWord s.params.bits s.resets r.val))
    s := Vector.ofFn fun r : Fin 8 => Config.resetWord s.params.bits s.resets r.val
    flags := 0
    fstat := 0
    fcmd := 0
    ccnt := 0
    resets := s.resets + 1 }

/-- The last effect of a command that completes: `CCNT <- (CCNT + 1) mod 2^32` (R21). -/
def State.complete (s : State) : State := { s with ccnt := s.ccnt + 1 }

/-- One command on a state: refused with no change while the block is faulted (R37, R155); else, if a check fails,
the fault entry with the command's own word and no other effect (R14, R153, R154); else its effect, then `CCNT`. -/
def runCommand (i : Instr) (s : State) (check : Option Cause) (effect : State) :
    Host.Outcome State Fault Refusal :=
  if s.faulted then .next s
  else
    match check with
    | some c => .next (raiseFault c (encode i) s)
    | none => .next effect.complete

/-- `SHIFT_RANGE` iff the amount is `>= BITS` (R97). -/
def shiftCheck (bits amount : Nat) : Option Cause := if amount < bits then none else some .shiftRange

/-- `EVEN_MODULUS` iff the word is even; zero counts as even (R110, R120, R151). -/
def oddCheck {bits : Nat} (n0 : Word bits) : Option Cause :=
  if n0.toNat % 2 = 0 then some .evenModulus else none

/-- `BAD_MC` iff `wmul(mc, n[0]) != B - 1` (R120). -/
def mcCheck {bits : Nat} (mc n0 : Word bits) : Option Cause :=
  if (mc * n0).toNat = 2 ^ bits - 1 then none else some .badMc

/-- The first check that fails, in the order of R160. -/
def firstFault (a b : Option Cause) : Option Cause :=
  match a with
  | some c => some c
  | none => b

end Sys2Proof.Machine
end

