-- ==== Sys2Proof/Machine/ModInverse.lean ====
section
/-!
DEFINITION. `44_modinv.md`, the `extended_euclidean_modular_inverse`: EGCD, MINV (R105 to R111), on word registers
only. Quotients and remainders are unsigned (R105), products and differences wrap (R8).
-/

namespace Sys2Proof.Machine

/-- The recursion of R106 with its depth bounded by `fuel`. -/
def egcdBounded {bits : Nat} : (fuel : Nat) → Word bits → Word bits → Word bits × Word bits
  | 0, _, _ => (0, 1)
  | fuel + 1, a, b =>
    if a.toNat = 0 then (0, 1)
    else
      let (x1, y1) := egcdBounded fuel (b % a) a
      (y1 - b / a * x1, x1)

/-- `egcd(a, b)` (R106). The first argument strictly decreases (R108), so a depth of `a` reaches the base case. -/
def egcd {bits : Nat} (a b : Word bits) : Word bits × Word bits := egcdBounded a.toNat a b

/-- The forward pass of `egcd_iter` (R108): the quotients, LAST appended first. -/
def egcdQuotients {bits : Nat} : (fuel : Nat) → Word bits → Word bits → List (Word bits) → List (Word bits)
  | 0, _, _, q => q
  | fuel + 1, a, b, q => if a.toNat = 0 then q else egcdQuotients fuel (b % a) a (b / a :: q)

/-- The backward pass of `egcd_iter` (R108). -/
def egcdSubstitute {bits : Nat} : List (Word bits) → Word bits × Word bits → Word bits × Word bits
  | [], xy => xy
  | t :: q, (x, y) => egcdSubstitute q (y - t * x, x)

/-- `egcd_iter(a, b)` (R108): the iterative realisation the spec gives beside the recursion. -/
def egcdIter {bits : Nat} (a b : Word bits) : Word bits × Word bits :=
  egcdSubstitute (egcdQuotients a.toNat a b []) (0, 1)

/-- `minv(n)` (R109): `-n^-1 mod 2^BITS` for an odd word `n`. -/
def minv {bits : Nat} (n : Word bits) : Word bits :=
  let negn := -n
  let r := negn % n
  let q := negn / n + 1
  let (x1, y1) := egcd r n
  let x := y1 - q * x1
  ~~~x + 1

/-- EGCD (R107). The encoding with `rd = rc` is illegal (R55), so the command faults `ILLEGAL_COMMAND` (log 9). -/
def execEgcd (rd rc ra rb : SReg) (s : State) : Host.Outcome State Fault Refusal :=
  let xy := egcd (s.readS ra) (s.readS rb)
  runCommand (.egcd rd rc ra rb) s (if rd = rc then some .illegalCommand else none)
    { s with s := (s.s.set rd xy.1).set rc xy.2 }

/-- MINV (R110). -/
def execMinv (rd ra : SReg) (s : State) : Host.Outcome State Fault Refusal :=
  runCommand (.minv rd ra) s (oddCheck (s.readS ra)) (s.writeS rd (minv (s.readS ra)))

end Sys2Proof.Machine
end

