-- ==== Sys2Proof/Machine/AdderSubtractor.lean ====
section
/-!
DEFINITION. `42_add_sub.md`, the `carry_propagation_unit` and the `fixed_width_uint_adder_subtractor`: ADDW, ADD, SUB
(R85 to R91), word by word as the source prescribes.
-/

namespace Sys2Proof.Machine

/-- A carry or borrow bit as a word. -/
def carryWord (bits : Nat) (c : Bool) : Word bits := BitVec.ofNat bits (bitOf c)

/-- `adc(x, y, cin)` (R86): two-stage overflow detection. Returns the sum and the carry out. -/
def adc {bits : Nat} (x y : Word bits) (cin : Bool) : Word bits × Bool :=
  let s1 := x + y
  let c1 := decide (s1.toNat < x.toNat)
  let s2 := s1 + carryWord bits cin
  let c2 := decide (s2.toNat < s1.toNat)
  (s2, c1 || c2)

/-- `sbb(x, y, bin)` (R87): two-stage borrow detection. Returns the difference and the borrow out. -/
def sbb {bits : Nat} (x y : Word bits) (bin : Bool) : Word bits × Bool :=
  let d1 := x - y
  let b1 := decide (x.toNat < y.toNat)
  let d2 := d1 - carryWord bits bin
  let b2 := decide (d1.toNat < bitOf bin)
  (d2, b1 || b2)

/-- The carry chain of `addc_wide` (R88), from word 0 upward. -/
def addcWords {bits : Nat} : List (Word bits) → List (Word bits) → Bool → List (Word bits) × Bool
  | x :: xs, y :: ys, c =>
    let (r, c') := adc x y c
    let (rs, cout) := addcWords xs ys c'
    (r :: rs, cout)
  | _, _, c => ([], c)

/-- The borrow chain of `subb_wide` (R88), from word 0 upward. -/
def subbWords {bits : Nat} : List (Word bits) → List (Word bits) → Bool → List (Word bits) × Bool
  | x :: xs, y :: ys, c =>
    let (r, c') := sbb x y c
    let (rs, bout) := subbWords xs ys c'
    (r :: rs, bout)
  | _, _, c => ([], c)

/-- `addc_wide(a, b, cin)` (R88): the wide sum and the carry out of word `W-1`. -/
def addcWide {bits w : Nat} (a b : Wide bits w) (cin : Bool) : Wide bits w × Bool :=
  let (rs, cout) := addcWords a.words b.words cin
  (Wide.ofWords rs, cout)

/-- `subb_wide(a, b, bin)` (R88): the wide difference and the borrow out of word `W-1`. -/
def subbWide {bits w : Nat} (a b : Wide bits w) (bin : Bool) : Wide bits w × Bool :=
  let (rs, bout) := subbWords a.words b.words bin
  (Wide.ofWords rs, bout)

/-- The loop of ADDW (R89): a whole word is carried into word 0, then 0 or 1, with the fast exit at carry 0. -/
def addwWords {bits : Nat} : List (Word bits) → Word bits → List (Word bits)
  | [], _ => []
  | x :: xs, carry =>
    if carry.toNat = 0 then x :: xs
    else
      let t := x + carry
      t :: addwWords xs (carryWord bits (decide (t.toNat < x.toNat)))

/-- The sum of a wide value and a word, modulo `R` (R89). -/
def addWord {bits w : Nat} (a : Wide bits w) (x : Word bits) : Wide bits w := Wide.ofWords (addwWords a.words x)

/-- ADDW (R89). -/
def execAddw (rd ra : VReg) (rb : SReg) (s : State) : Host.Outcome State Fault Refusal :=
  runCommand (.addw rd ra rb) s none (s.writeV rd (addWord (s.readV ra) (s.readS rb)))

/-- ADD (R90): the carry out is discarded. -/
def execAdd (rd ra rb : VReg) (s : State) : Host.Outcome State Fault Refusal :=
  runCommand (.add rd ra rb) s none (s.writeV rd (addcWide (s.readV ra) (s.readV rb) false).1)

/-- SUB (R91): the borrow out is discarded. -/
def execSub (rd ra rb : VReg) (s : State) : Host.Outcome State Fault Refusal :=
  runCommand (.sub rd ra rb) s none (s.writeV rd (subbWide (s.readV ra) (s.readV rb) false).1)

end Sys2Proof.Machine
end

