-- ==== Sys2Proof/Machine/Comparator.lean ====
section
/-!
DEFINITION. `41_compare.md`, the `word_array_comparator`: EQU, CMP (R80 to R83).
-/

namespace Sys2Proof.Machine

/-- Comparison of two word lists given MOST significant word first: the first differing word decides (R80). -/
def cmpMostSignificantFirst {bits : Nat} : List (Word bits) → List (Word bits) → Ordering
  | x :: xs, y :: ys =>
    if x.toNat < y.toNat then .lt
    else if y.toNat < x.toNat then .gt
    else cmpMostSignificantFirst xs ys
  | _, _ => .eq

/-- `cmpw(a, b)` (R80): words compared from `W-1` down to 0, unsigned. -/
def cmpw {bits w : Nat} (a b : Wide bits w) : Ordering :=
  cmpMostSignificantFirst a.words.reverse b.words.reverse

/-- `ltw(a, b)`: `cmpw(a, b) = Less` (R80). -/
def ltw {bits w : Nat} (a b : Wide bits w) : Bool := cmpw a b == .lt

/-- `gew(a, b)`: the negation of `ltw` (R80). -/
def gew {bits w : Nat} (a b : Wide bits w) : Bool := !ltw a b

/-- `a[j] = b[j]` for every `j` (R81). -/
def equalWords {bits : Nat} : List (Word bits) → List (Word bits) → Bool
  | x :: xs, y :: ys => x.toNat == y.toNat && equalWords xs ys
  | _, _ => true

/-- "equal iff all words equal" (R81). -/
def equw {bits w : Nat} (a b : Wide bits w) : Bool := equalWords a.words b.words

/-- EQU (R81): writes `FLAGS.E` only. -/
def execEqu (ra rb : VReg) (s : State) : Host.Outcome State Fault Refusal :=
  runCommand (.equ ra rb) s none { s with flags := setFlagE s.flags (equw (s.readV ra) (s.readV rb)) }

/-- CMP (R82): writes `FLAGS.ORD` only. -/
def execCmp (ra rb : VReg) (s : State) : Host.Outcome State Fault Refusal :=
  runCommand (.cmp ra rb) s none { s with flags := setFlagOrd s.flags (cmpw (s.readV ra) (s.readV rb)) }

end Sys2Proof.Machine
end

