-- ==== Sys2Proof/Machine/ConstPredicates.lean ====
section
/-!
DEFINITION. `40_constants_predicates.md`: CZERO, CONE, CTWO, CTHREE, FROMW, ISZ, LOWB (R70 to R77). None of them can
fault once decoded (R70).
-/

namespace Sys2Proof.Machine

/-- "true iff every word is zero" (R76). -/
def isZero {bits w : Nat} (a : Wide bits w) : Bool := a.words.all fun x => x.toNat == 0

/-- The lowest bit of word 0 (R77). -/
def lowBit {bits w : Nat} (a : Wide bits w) : Bool := (a.word 0).toNat % 2 == 1

/-- A wide value with the given word 0, all higher words zero (R70, R75). -/
def fromWord {bits w : Nat} (x : Word bits) : Wide bits w := Wide.ofWords [x]

/-- CZERO (R71). -/
def execCzero (rd : VReg) (s : State) : Host.Outcome State Fault Refusal :=
  runCommand (.czero rd) s none (s.writeV rd (fromWord 0))

/-- CONE (R72). -/
def execCone (rd : VReg) (s : State) : Host.Outcome State Fault Refusal :=
  runCommand (.cone rd) s none (s.writeV rd (fromWord 1))

/-- CTWO (R73). -/
def execCtwo (rd : VReg) (s : State) : Host.Outcome State Fault Refusal :=
  runCommand (.ctwo rd) s none (s.writeV rd (fromWord 2))

/-- CTHREE (R74). -/
def execCthree (rd : VReg) (s : State) : Host.Outcome State Fault Refusal :=
  runCommand (.cthree rd) s none (s.writeV rd (fromWord 3))

/-- FROMW (R75). -/
def execFromw (rd : VReg) (ra : SReg) (s : State) : Host.Outcome State Fault Refusal :=
  runCommand (.fromw rd ra) s none (s.writeV rd (fromWord (s.readS ra)))

/-- ISZ (R76): writes `FLAGS.Z` only. -/
def execIsz (ra : VReg) (s : State) : Host.Outcome State Fault Refusal :=
  runCommand (.isz ra) s none { s with flags := setFlagZ s.flags (isZero (s.readV ra)) }

/-- LOWB (R77): writes `FLAGS.L` only. -/
def execLowb (ra : VReg) (s : State) : Host.Outcome State Fault Refusal :=
  runCommand (.lowb ra) s none { s with flags := setFlagL s.flags (lowBit (s.readV ra)) }

end Sys2Proof.Machine
end

