-- ==== Sys2Proof/Machine/Montgomery.lean ====
section
/-!
DEFINITION. `45_montgomery.md`, the `montgomery_redc_reducer` and `montgomery_multiplier`: MMUL, MCONV (R115 to
R124). The multiplication is the integer-level function of R117, the architectural one; the word-level datapath of
R118 stands beside it.
-/

namespace Sys2Proof.Machine

/-- `redc_step(acc, n, mc)` (R116): fold in the multiple of `n` that makes the low word zero, shift down one word. -/
def redcStep {bits : Nat} (acc n : Nat) (mc : Word bits) : Nat :=
  let m := BitVec.ofNat bits acc * mc
  (acc + m.toNat * n) / 2 ^ bits

/-- The loop of `mmul` (R117) over the words of `b`, word 0 first. -/
def mmulLoop {bits : Nat} (a n : Nat) (mc : Word bits) : List (Word bits) → (acc : Nat) → Nat
  | [], acc => acc
  | bi :: bs, acc => mmulLoop a n mc bs (redcStep (acc + a * bi.toNat) n mc)

/-- `T`, the accumulator after `W` iterations (R117). -/
def mmulT {bits w : Nat} (a b n : Wide bits w) (mc : Word bits) : Nat :=
  mmulLoop a.value n.value mc b.words 0

/-- Exactly one conditional subtraction of the modulus (R117, decision D19). -/
def subtractOnce (t n : Nat) : Nat := if n ≤ t then t - n else t

/-- `mmul(a, b, n, mc)` (R117). -/
def mmul {bits w : Nat} (a b n : Wide bits w) (mc : Word bits) : Wide bits w :=
  Wide.ofNat (subtractOnce (mmulT a b n mc) n.value)

/-- The accumulator `t[0 .. W+1]` of R118: its words `0 .. W-1` and the two high-word carry words. -/
structure RedcAcc (bits : Nat) where
  /-- `t[0 .. W-1]`. -/
  low : List (Word bits)
  /-- `t[W]`. -/
  top : Word bits
  /-- `t[W+1]`. -/
  extra : Word bits
deriving DecidableEq, Repr

/-- `lo(x) = x mod B` (R118). -/
def loWord (bits x : Nat) : Word bits := BitVec.ofNat bits x

/-- `hi(x) = x div B` (R118). -/
def hiWord (bits x : Nat) : Word bits := BitVec.ofNat bits (x / 2 ^ bits)

/-- One pass `x <- t[j] + a[j] * m + c; t[j] <- lo(x); c <- hi(x)` over the words (R118): the words and the last `c`. -/
def mulAddPass {bits : Nat} (m : Word bits) :
    (a t : List (Word bits)) → (c : Word bits) → List (Word bits) × Word bits
  | x :: xs, y :: ys, c =>
    let sum := y.toNat + x.toNat * m.toNat + c.toNat
    let (rs, c') := mulAddPass m xs ys (hiWord bits sum)
    (loWord bits sum :: rs, c')
  | _, _, c => ([], c)

/-- One outer iteration of R118: multiply-accumulate by `b[i]`, then fold and shift, each word of the fold written
one index lower. -/
def datapathStep {bits : Nat} (a n : List (Word bits)) (mc bi : Word bits) (t : RedcAcc bits) : RedcAcc bits :=
  let (low, c) := mulAddPass bi a t.low 0
  let x := t.top.toNat + c.toNat
  let top := loWord bits x
  let extra := t.extra + hiWord bits x
  let m := low.headD 0 * mc
  let (folded, c) := mulAddPass m n low 0
  let y := top.toNat + c.toNat
  let z := extra.toNat + (hiWord bits y).toNat
  ⟨folded.tail ++ [loWord bits y], loWord bits z, hiWord bits z⟩

/-- The outer loop of R118 over the words of `b`. -/
def datapathLoop {bits : Nat} (a n : List (Word bits)) (mc : Word bits) :
    List (Word bits) → RedcAcc bits → RedcAcc bits
  | [], t => t
  | bi :: bs, t => datapathLoop a n mc bs (datapathStep a n mc bi t)

/-- The word-level rendering of R118: `T` is the value of the `W + 1` words `t[0 .. W]`. -/
def datapathMmul {bits w : Nat} (a b n : Wide bits w) (mc : Word bits) : Wide bits w :=
  let t := datapathLoop a.words n.words mc b.words ⟨List.replicate w 0, 0, 0⟩
  Wide.ofNat (subtractOnce (wordsValue (t.low ++ [t.top])) n.value)

/-- The doubling loop of `mconv` (R122): `x <- 2x`, less `n` when the carry is 1 or `x >= n`. -/
def mconvLoop {bits w : Nat} (n : Wide bits w) : (count : Nat) → Wide bits w → Wide bits w
  | 0, x => x
  | count + 1, x =>
    let (y, c) := addcWide x x false
    mconvLoop n count (if c || gew y n then (subbWide y n false).1 else y)

/-- `mconv(n)` (R121, R122): `2 * W * BITS` doublings from `1 mod n`. -/
def mconv {bits w : Nat} (n : Wide bits w) : Wide bits w :=
  let one := fromWord 1
  mconvLoop n (2 * w * bits) (if gew one n then (subbWide one n false).1 else one)

/-- MMUL (R120): `EVEN_MODULUS`, then `BAD_MC`, then the product. `a` and `b` are not checked against `n`. -/
def execMmul (rd ra rb rc : VReg) (re : SReg) (s : State) : Host.Outcome State Fault Refusal :=
  runCommand (.mmul rd ra rb rc re) s
    (firstFault (oddCheck (s.lowWord rc)) (mcCheck (s.readS re) (s.lowWord rc)))
    (s.writeV rd (mmul (s.readV ra) (s.readV rb) (s.readV rc) (s.readS re)))

/-- MCONV (R123). -/
def execMconv (rd rc : VReg) (s : State) : Host.Outcome State Fault Refusal :=
  runCommand (.mconv rd rc) s (oddCheck (s.lowWord rc)) (s.writeV rd (mconv (s.readV rc)))

end Sys2Proof.Machine
end

