-- ==== Sys2Proof/Machine/ModExp.lean ====
section
/-!
DEFINITION. `46_modexp.md`, the `modular_exponentiation_engine`: POWM (R130 to R133), binary square-and-multiply in
Montgomery form over all `W*BITS` exponent bits.
-/

namespace Sys2Proof.Machine

/-- `bit(e, k) = (e div 2^k) mod 2` (R8, R131). -/
def exponentBit (e k : Nat) : Bool := e / 2 ^ k % 2 == 1

/-- The loop of `powm` (R131), bits `count - 1` down to 0: square on every bit, multiply when the bit is set. -/
def powmLoop {bits w : Nat} (n bm : Wide bits w) (mc : Word bits) (e : Nat) :
    (count : Nat) → (acc : Wide bits w) → Wide bits w
  | 0, acc => acc
  | k + 1, acc =>
    let sq := mmul acc acc n mc
    powmLoop n bm mc e k (if exponentBit e k then mmul sq bm n mc else sq)

/-- `powm(base, e, n)` (R131): `mc` and `RR` are computed inside and discarded (R22). -/
def powm {bits w : Nat} (base e n : Wide bits w) : Wide bits w :=
  let mc := minv (n.word 0)
  let rr := mconv n
  let one := fromWord 1
  let bm := mmul base rr n mc
  let acc := mmul rr one n mc
  mmul (powmLoop n bm mc e.value (w * bits) acc) one n mc

/-- POWM (R132). -/
def execPowm (rd ra rb rc : VReg) (s : State) : Host.Outcome State Fault Refusal :=
  runCommand (.powm rd ra rb rc) s (oddCheck (s.lowWord rc))
    (s.writeV rd (powm (s.readV ra) (s.readV rb) (s.readV rc)))

end Sys2Proof.Machine
end

