-- ==== Sys2Proof/Machine/Shifter.lean ====
section
/-!
DEFINITION. `43_shift.md`, the `bit_shift_unit`: SHL, SHR, SHLI, SHRI (R95 to R102), logical shifts by less than one
word.
-/

namespace Sys2Proof.Machine

/-- The bits a left shift carries into a word from the word below: its top `k` bits, none when `k = 0` (R95, R96). -/
def carriedUp {bits : Nat} (k : Nat) (below : Word bits) : Word bits :=
  if 0 < k then BitVec.ofNat bits (below.toNat / 2 ^ (bits - k)) else 0

/-- The loop of `shl_wide` (R95), given the word below the first one (0 below word 0); the neighbour read is always
the word before the shift. -/
def shlWords {bits : Nat} (k : Nat) : (below : Word bits) → List (Word bits) → List (Word bits)
  | _, [] => []
  | below, x :: xs => (BitVec.ofNat bits (x.toNat * 2 ^ k) ||| carriedUp k below) :: shlWords k x xs

/-- `shl_wide(a, k)` (R95). -/
def shlWide {bits w : Nat} (a : Wide bits w) (k : Nat) : Wide bits w := Wide.ofWords (shlWords k 0 a.words)

/-- The bits a right shift carries into a word from the word above: its low `k` bits moved to the top, none when
`k = 0` or above word `W-1` (R95, R96). -/
def carriedDown {bits : Nat} (k : Nat) : (above : List (Word bits)) → Word bits
  | [] => 0
  | y :: _ => if 0 < k then BitVec.ofNat bits (y.toNat * 2 ^ (bits - k)) else 0

/-- The loop of `shr_wide` (R95). -/
def shrWords {bits : Nat} (k : Nat) : List (Word bits) → List (Word bits)
  | [] => []
  | x :: xs => (BitVec.ofNat bits (x.toNat / 2 ^ k) ||| carriedDown k xs) :: shrWords k xs

/-- `shr_wide(a, k)` (R95). -/
def shrWide {bits w : Nat} (a : Wide bits w) (k : Nat) : Wide bits w := Wide.ofWords (shrWords k a.words)

/-- SHL (R98). -/
def execShl (rd ra : VReg) (rb : SReg) (s : State) : Host.Outcome State Fault Refusal :=
  runCommand (.shl rd ra rb) s (shiftCheck s.params.bits (s.amountReg rb))
    (s.writeV rd (shlWide (s.readV ra) (s.amountReg rb)))

/-- SHR (R99). -/
def execShr (rd ra : VReg) (rb : SReg) (s : State) : Host.Outcome State Fault Refusal :=
  runCommand (.shr rd ra rb) s (shiftCheck s.params.bits (s.amountReg rb))
    (s.writeV rd (shrWide (s.readV ra) (s.amountReg rb)))

/-- SHLI (R100). -/
def execShli (rd ra : VReg) (imm8 : BitVec 8) (s : State) : Host.Outcome State Fault Refusal :=
  runCommand (.shli rd ra imm8) s (shiftCheck s.params.bits (amountImm imm8))
    (s.writeV rd (shlWide (s.readV ra) (amountImm imm8)))

/-- SHRI (R101). -/
def execShri (rd ra : VReg) (imm8 : BitVec 8) (s : State) : Host.Outcome State Fault Refusal :=
  runCommand (.shri rd ra imm8) s (shiftCheck s.params.bits (amountImm imm8))
    (s.writeV rd (shrWide (s.readV ra) (amountImm imm8)))

end Sys2Proof.Machine
end

