-- ==== Sys2Proof/Machine/Dispatch.lean ====
section
/-! DEFINITION. Which meaning each command has (R54): one arm per command. -/

namespace Sys2Proof.Machine

def exec (i : Instr) (s : State) : Host.Outcome State Fault Refusal :=
  match i with
  | .czero rd => Sys2Proof.Machine.execCzero rd s
  | .cone rd => Sys2Proof.Machine.execCone rd s
  | .ctwo rd => Sys2Proof.Machine.execCtwo rd s
  | .cthree rd => Sys2Proof.Machine.execCthree rd s
  | .fromw rd ra => Sys2Proof.Machine.execFromw rd ra s
  | .isz ra => Sys2Proof.Machine.execIsz ra s
  | .lowb ra => Sys2Proof.Machine.execLowb ra s
  | .equ ra rb => Sys2Proof.Machine.execEqu ra rb s
  | .cmp ra rb => Sys2Proof.Machine.execCmp ra rb s
  | .addw rd ra rb => Sys2Proof.Machine.execAddw rd ra rb s
  | .add rd ra rb => Sys2Proof.Machine.execAdd rd ra rb s
  | .sub rd ra rb => Sys2Proof.Machine.execSub rd ra rb s
  | .shl rd ra rb => Sys2Proof.Machine.execShl rd ra rb s
  | .shr rd ra rb => Sys2Proof.Machine.execShr rd ra rb s
  | .shli rd ra imm8 => Sys2Proof.Machine.execShli rd ra imm8 s
  | .shri rd ra imm8 => Sys2Proof.Machine.execShri rd ra imm8 s
  | .egcd rd rc ra rb => Sys2Proof.Machine.execEgcd rd rc ra rb s
  | .minv rd ra => Sys2Proof.Machine.execMinv rd ra s
  | .mmul rd ra rb rc re => Sys2Proof.Machine.execMmul rd ra rb rc re s
  | .mconv rd rc => Sys2Proof.Machine.execMconv rd rc s
  | .powm rd ra rb rc => Sys2Proof.Machine.execPowm rd ra rb rc s

end Sys2Proof.Machine
end

