-- ==== Sys2Proof/Machine/HostPort.lean ====
section
/-!
DEFINITION. `20_memory.md`: the host port operations (R31 to R37) and their port faults (R36). Each is performed on
the state from which it was already taken out of `port`, with `answer` already cleared.
-/

namespace Sys2Proof.Machine

/-- A write in range: performed unless the block is faulted (R32, R33, R155). -/
def writeUnlessFaulted (s written : State) : State := if s.faulted then s else written

/-- `WRV r, j, data` (R32, R36). -/
def portWrv (r j : Nat) (s : State) (data : Word s.params.bits) : State :=
  if h : r < 8 then
    if j < s.params.words then
      writeUnlessFaulted s (s.writeV ⟨r, h⟩ ((s.readV ⟨r, h⟩).setWord j data))
    else raiseFault .portAccess 0 s
  else raiseFault .portAccess 0 s

/-- `RDV r, j` (R32): the word, also while faulted; out of range 0 and a port fault (R36). -/
def portRdv (r j : Nat) (s : State) : State :=
  if h : r < 8 then
    if j < s.params.words then { s with answer := .word ((s.readV ⟨r, h⟩).word j) }
    else { raiseFault .portAccess 0 s with answer := .word 0 }
  else { raiseFault .portAccess 0 s with answer := .word 0 }

/-- `WRS r, data` (R33, R36). -/
def portWrs (r : Nat) (s : State) (data : Word s.params.bits) : State :=
  if h : r < 8 then writeUnlessFaulted s (s.writeS ⟨r, h⟩ data)
  else raiseFault .portAccess 0 s

/-- `RDS r` (R33, R36). -/
def portRds (r : Nat) (s : State) : State :=
  if h : r < 8 then { s with answer := .word (s.readS ⟨r, h⟩) }
  else { raiseFault .portAccess 0 s with answer := .word 0 }

/-- The CSR numbers of R15. -/
def State.csr (s : State) (k : Nat) : Option (BitVec 32) :=
  match k with
  | 0 => some s.flags
  | 1 => some s.fstat
  | 2 => some s.fcmd
  | 3 => some s.ccnt
  | _ => none

/-- `RDC k` (R34, R36). -/
def portRdc (k : Nat) (s : State) : State :=
  match s.csr k with
  | some x => { s with answer := .csr x }
  | none => { raiseFault .portAccess 0 s with answer := .csr 0 }

/-- A write to space `C`: always a port fault (R36; log 7). -/
def portWrc (s : State) : State := raiseFault .portAccess 0 s

/-- `ISSUE cmd` (R37): the command the word spells, or the fault `ILLEGAL_COMMAND` (R55). While the block is faulted
both leave it as it is: the command is refused (R155). -/
def portIssue (cmd : BitVec 32) (s : State) : Host.Outcome State Fault Refusal :=
  match decode cmd with
  | .ok i => exec i s
  | .error _ => .next (raiseFault .illegalCommand cmd s)

/-- One host port operation, to completion (R31, R38). -/
def portStep (s : State) (op : PortOp s.params.bits) : Host.Outcome State Fault Refusal :=
  match op with
  | .wrv r j data => .next (portWrv r j s data)
  | .rdv r j => .next (portRdv r j s)
  | .wrs r data => .next (portWrs r s data)
  | .rds r => .next (portRds r s)
  | .rdc k => .next (portRdc k s)
  | .wrc _ _ => .next (portWrc s)
  | .issue cmd => portIssue cmd s
  | .reset => .next (resetBlock s)

/-- The state in which the oldest pending operation is performed: the rest stays pending, no value is returned yet. -/
def takeOp (s : State) (rest : List (PortOp s.params.bits)) : State := { s with port := rest, answer := .none }

end Sys2Proof.Machine
end

