-- ==== Sys2Proof/Machine/Step.lean ====
section
/-!
DEFINITION. One step of the machine: one host port operation (R31, R38, R41). With none pending the block is idle and
keeps all its state (R162).
-/

namespace Sys2Proof.Machine

/-- One step: take the oldest pending host port operation and perform it to completion; idle when there is none. -/
def step (s : State) : Host.Outcome State Fault Refusal :=
  match s.port with
  | [] => .next s
  | op :: rest => portStep (takeOp s rest) op

/-- `s` with `ISSUE` of the command word `w` as the host's next operation (R37; a command is one 32-bit word, R50). -/
def State.withFetchWord (s : State) (nbits w : Nat) : State :=
  { s with port := .issue (BitVec.ofNat 32 (w % 2 ^ nbits)) :: s.port }

end Sys2Proof.Machine
end

