-- ==== Sys2Proof/Safety.lean ====
section
/-!
DEFINITION. What counts as a legal state and as a successful run, in the terms claims use: the CSR contents the spec
allows (R16, R18, R19, R151, R152), and a run that ends without a fault (R155).
-/

namespace Sys2Proof

/-- The wide register a command names as its destination (R52), if it has one. -/
def Instr.vDestination : Instr → Option VReg
  | .czero rd | .cone rd | .ctwo rd | .cthree rd => some rd
  | .fromw rd _ | .mconv rd _ => some rd
  | .addw rd _ _ | .add rd _ _ | .sub rd _ _ | .shl rd _ _ | .shr rd _ _ => some rd
  | .shli rd _ _ | .shri rd _ _ => some rd
  | .mmul rd _ _ _ _ => some rd
  | .powm rd _ _ _ => some rd
  | .isz _ | .lowb _ | .equ _ _ | .cmp _ _ | .egcd _ _ _ _ | .minv _ _ => none

/-- The word registers a command names as its destinations (R52). -/
def Instr.sDestinations : Instr → List SReg
  | .egcd rd rc _ _ => [rd, rc]
  | .minv rd _ => [rd]
  | .czero _ | .cone _ | .ctwo _ | .cthree _ | .fromw _ _ | .isz _ | .lowb _ | .equ _ _ | .cmp _ _ => []
  | .addw _ _ _ | .add _ _ _ | .sub _ _ _ | .shl _ _ _ | .shr _ _ _ | .shli _ _ _ | .shri _ _ _ => []
  | .mmul _ _ _ _ _ | .mconv _ _ | .powm _ _ _ _ => []

end Sys2Proof

namespace Sys2Proof.Machine

/-- `FLAGS`: bits 31:5 zero and `ORD` never 3 (R16, R83). -/
def flagsLegal (r : BitVec 32) : Bool := bitField r 31 5 == 0 && flagOrd r != 3

/-- The command that a recorded fault names is one that can raise that cause (R19, R151, R152): an undecodable word for
`ILLEGAL_COMMAND`, a shift for `SHIFT_RANGE`, MINV, MMUL, MCONV or POWM for `EVEN_MODULUS`, MMUL for `BAD_MC`, the word
0 for `PORT_ACCESS`. No other cause code occurs. -/
def faultRecordLegal (cause : Nat) (fcmd : BitVec 32) : Bool :=
  match cause, (decode fcmd).toOption.map Instr.opcode with
  | 1, none => true
  | 2, some o => o == .shl || o == .shr || o == .shli || o == .shri
  | 3, some o => o == .minv || o == .mmul || o == .mconv || o == .powm
  | 4, some o => o == .mmul
  | 5, _ => fcmd == 0
  | _, _ => false

/-- `FSTAT` and `FCMD` (R18, R19): all zero while not faulted; while faulted the reserved bits are zero and the record
names a cause with a command that can raise it. -/
def faultStateLegal (s : State) : Bool :=
  if s.faulted then
    bitField s.fstat 3 1 == 0 && bitField s.fstat 31 8 == 0 && faultRecordLegal (statusCause s.fstat) s.fcmd
  else s.fstat == 0 && s.fcmd == 0

/-- The CSR contents the spec allows. -/
def State.csrsLegal (s : State) : Bool := flagsLegal s.flags && faultStateLegal s

/-- A run of the host's operations has ended in success: none is pending and the block is not faulted (R155). -/
def State.finishedClean (s : State) : Bool := s.port.isEmpty && !s.faulted

end Sys2Proof.Machine
end

