-- ==== Sys2Proof/Certificates/Slice0/Obligations.lean ====
section
/-!
DEFINITION. The statements about the block. `s.readV r` and `s.readS r` are `v[r]` and `s[r]`; `s.params.radix` is
`R = 2^(W*BITS)`, `s.params.base` is `B = 2^BITS`. A statement that quantifies over all states quantifies over all
admitted `BITS` and `W` (log 1). A next state is written as a record update, so it is the whole frame: what is not
named is unchanged, the model's own fields (`port`, `answer`, `resets`, `params`) included.
-/

open Sys2Proof Sys2Proof.Machine

/-! ## Encoding -/

/-- R51, R52, R54, R55: the encoder's word decodes to the command, with every operand. -/
def Obligations.DecodeOfEncodeIsTheCommand : Prop :=
  ∀ i : Instr, i.wellFormed = true → decode (encode i) = .ok i

/-- R51, R55: a legal word spells exactly one command, whose word it is; so `FCMD` (R19), which the model writes as
`encode` of the command (log 8), holds the issued word. -/
def Obligations.EncodeOfDecodeIsTheWord : Prop :=
  ∀ (c : BitVec 32) (i : Instr), decode c = .ok i → i.wellFormed = true ∧ encode i = c

/-- R54, R55: `c` is legal iff it matches exactly one row of the opcode table and, for EGCD, `rd != rc`; and the command
it spells is that row's. -/
def Obligations.LegalWordsAreTheRowsOfTheTable : Prop :=
  ∀ c : BitVec 32,
    ((∃ i, decode c = .ok i) ↔
      (opcodeTable.filter fun row => row.spells c).length = 1 ∧
      ¬ ((∃ row ∈ opcodeTable, row.opcode = .egcd ∧ row.spells c = true) ∧ bitField c 22 20 = bitField c 10 8)) ∧
    ∀ i, decode c = .ok i → ∃ row ∈ opcodeTable, row.opcode = i.opcode ∧ row.spells c = true

/-- R59: the worked encodings, the three illegal ones among them. -/
def Obligations.WorkedEncodingsDecodeAsListed : Prop :=
  decode 0x01300000 = .ok (.czero 3) ∧
  decode 0x05120000 = .ok (.fromw 1 2) ∧
  decode 0x0B045000 = .ok (.cmp 4 5) ∧
  decode 0x11123000 = .ok (.add 1 2 3) ∧
  decode 0x1B220001 = .ok (.shri 2 2 1) ∧
  decode 0x1A070040 = .ok (.shli 0 7 64) ∧
  decode 0x20023100 = .ok (.egcd 0 1 2 3) ∧
  decode 0x21760000 = .ok (.minv 7 6) ∧
  decode 0x28012340 = .ok (.mmul 0 1 2 3 4) ∧
  decode 0x29500300 = .ok (.mconv 5 3) ∧
  decode 0x30012300 = .ok (.powm 0 1 2 3) ∧
  decode 0x1A610000 = .ok (Instr.mov 6 1) ∧
  (decode 0x11923000).toOption = none ∧
  (decode 0x11123100).toOption = none ∧
  (decode 0x20023000).toOption = none

/-! ## The machine -/

/-- R37, R55: when the host's next operation is `ISSUE` of a word that decodes to `i`, the step is `exec` of `i` on the
state with that operation taken. `port` and `answer` are the model's own fields (log 5, log 6). -/
def Obligations.StepRunsTheIssuedCommand : Prop :=
  ∀ (s : State) (c : BitVec 32) (rest : List (PortOp s.params.bits)) (i : Instr),
    decode c = .ok i →
    (s.port = .issue c :: rest → step s = exec i { s with port := rest, answer := .none }) ∧
    step (s.withFetchWord 32 c.toNat) = exec i { s with answer := .none }

/-- R55, R151, R153: a word that does not decode raises `ILLEGAL_COMMAND`: `FSTAT = 0x11`, `FCMD` the word, nothing
else. `port` and `answer` are the model's own fields (log 5, log 6). -/
def Obligations.IllegalCommandWordFaults : Prop :=
  ∀ (s : State) (c : BitVec 32) (rest : List (PortOp s.params.bits)) (e : DecodeError),
    s.csrsLegal = true → s.faulted = false → s.port = .issue c :: rest → decode c = .error e →
    step s = .next { s with port := rest, answer := .none, fstat := 0x11, fcmd := c }

/-- R155: while faulted, `ISSUE` is refused, writes write nothing, reads in range answer the current values, reads out
of range answer 0, and nothing else happens. `port` and `answer` are the model's own fields (log 5, log 6). -/
def Obligations.FaultedBlockOnlyAnswersReads : Prop :=
  ∀ (s : State) (rest : List (PortOp s.params.bits)), s.faulted = true →
    (∀ c, s.port = .issue c :: rest → step s = .next { s with port := rest, answer := .none }) ∧
    (∀ r j d, s.port = .wrv r j d :: rest → step s = .next { s with port := rest, answer := .none }) ∧
    (∀ r d, s.port = .wrs r d :: rest → step s = .next { s with port := rest, answer := .none }) ∧
    (∀ k d, s.port = .wrc k d :: rest → step s = .next { s with port := rest, answer := .none }) ∧
    (∀ (r : VReg) (j : Nat), j < s.params.words → s.port = .rdv r.val j :: rest →
      step s = .next { s with port := rest, answer := .word ((s.readV r).word j) }) ∧
    (∀ r j, ¬ (r < 8 ∧ j < s.params.words) → s.port = .rdv r j :: rest →
      step s = .next { s with port := rest, answer := .word 0 }) ∧
    (∀ r : SReg, s.port = .rds r.val :: rest → step s = .next { s with port := rest, answer := .word (s.readS r) }) ∧
    (∀ r, ¬ r < 8 → s.port = .rds r :: rest → step s = .next { s with port := rest, answer := .word 0 }) ∧
    (s.port = .rdc 0 :: rest → step s = .next { s with port := rest, answer := .csr s.flags }) ∧
    (s.port = .rdc 1 :: rest → step s = .next { s with port := rest, answer := .csr s.fstat }) ∧
    (s.port = .rdc 2 :: rest → step s = .next { s with port := rest, answer := .csr s.fcmd }) ∧
    (s.port = .rdc 3 :: rest → step s = .next { s with port := rest, answer := .csr s.ccnt }) ∧
    (∀ k, 4 ≤ k → s.port = .rdc k :: rest → step s = .next { s with port := rest, answer := .csr 0 })

/-- R156: there is no way to clear `F` other than `RESET`. -/
def Obligations.OnlyResetLeavesTheFaultedState : Prop :=
  ∀ s t : State, s.faulted = true → step s = .next t → t.faulted = false → ∃ rest, s.port = .reset :: rest

/-- R170: after `RESET` the four CSRs are 0 and the parameters are as before; the data registers `v'`, `s'` are not
constrained (they are free values, log 4). `port`, `answer`, `resets` are the model's own fields (log 4, 5, 6). -/
def Obligations.ResetOperationClearsTheCsrs : Prop :=
  ∀ (s : State) (rest : List (PortOp s.params.bits)), s.port = .reset :: rest →
    ∃ v' s', step s = .next
      { s with
        v := v', s := s', flags := 0, fstat := 0, fcmd := 0, ccnt := 0
        port := rest, answer := .none, resets := s.resets + 1 }

/-- R24: the CSRs of the block right after reset, for every parameter choice; the parameters of `State.reset` are the
model's choice (log 1) and not stated here. -/
def Obligations.ResetStateHasTheCsrValuesOfTheSpec : Prop :=
  (∀ p : Params, (State.resetWith p).flags = 0 ∧ (State.resetWith p).fstat = 0 ∧ (State.resetWith p).fcmd = 0 ∧
    (State.resetWith p).ccnt = 0 ∧ (State.resetWith p).faulted = false) ∧
  State.reset.flags = 0 ∧ State.reset.fstat = 0 ∧ State.reset.fcmd = 0 ∧ State.reset.ccnt = 0

/-- R16, R18, R19, R24: the CSRs are legal at reset. -/
def Obligations.ResetStateHasLegalCsrs : Prop :=
  State.reset.csrsLegal = true ∧ ∀ p : Params, (State.resetWith p).csrsLegal = true

/-- R16, R18, R19, R151, R152: every step keeps the CSRs legal: reserved bits 0, `ORD` never 3, `FSTAT` and `FCMD` 0
while not faulted, and a recorded fault names a cause of 1 to 5 and a word that can raise it. -/
def Obligations.EveryStepKeepsTheCsrsLegal : Prop :=
  ∀ s t : State, s.csrsLegal = true → step s = .next t → t.csrsLegal = true

/-- R7, R23: no operation changes `BITS` or `W`. -/
def Obligations.NoStepChangesTheParameters : Prop :=
  ∀ s t : State, step s = .next t → t.params = s.params

/-- R153, R155, R178: every operation completes: no step of the model ends in a fault or a refusal (log 10). -/
def Obligations.EveryStepAnswersANextState : Prop :=
  ∀ s : State, ∃ t, step s = .next t

/-- R162: with no operation pending the block is idle and keeps all its state. The queue is the model's (log 5). -/
def Obligations.IdleBlockKeepsItsState : Prop :=
  ∀ s : State, s.port = [] → step s = .next s

/-- R21: a completing command adds 1 to `CCNT` modulo `2^32`, a faulting one and every other port operation but
`RESET` leave it, and so does an `ISSUE` refused because the block is faulted. -/
def Obligations.CompletedCommandsAreCounted : Prop :=
  (∀ (i : Instr) (s t : State), s.faulted = false → exec i s = .next t →
    (t.faulted = false → t.ccnt.toNat = (s.ccnt.toNat + 1) % 2 ^ 32) ∧ (t.faulted = true → t.ccnt = s.ccnt)) ∧
  (∀ (s t : State) (op : PortOp s.params.bits) (rest : List (PortOp s.params.bits)), s.port = op :: rest →
    (∀ c, op = .issue c → s.faulted = true) → op ≠ .reset → step s = .next t → t.ccnt = s.ccnt)

/-! ## Frames over all commands -/

/-- R14, R52, R153: a command changes at most its destination registers, the flags if it names none, the fault
registers and `CCNT`; every other register keeps its value, whatever the outcome. -/
def Obligations.EveryCommandWritesOnlyItsDestinations : Prop :=
  ∀ (i : Instr) (s : State), ∃ v' s' flags' fstat' fcmd' ccnt',
    exec i s = .next
      { s with v := v', s := s', flags := flags', fstat := fstat', fcmd := fcmd', ccnt := ccnt' } ∧
    (∀ r : VReg, i.vDestination ≠ some r → v'[r.val] = s.readV r) ∧
    (∀ r : SReg, r ∉ i.sDestinations → s'[r.val] = s.readS r) ∧
    (i.vDestination ≠ none ∨ i.sDestinations ≠ [] → flags' = s.flags)

/-- R16, R17: each flag field is written by exactly one command. -/
def Obligations.EachFlagFieldHasOneWriter : Prop :=
  ∀ (i : Instr) (s t : State), exec i s = .next t →
    (i.opcode ≠ .isz → flagZ t.flags = flagZ s.flags) ∧
    (i.opcode ≠ .lowb → flagL t.flags = flagL s.flags) ∧
    (i.opcode ≠ .equ → flagE t.flags = flagE s.flags) ∧
    (i.opcode ≠ .cmp → flagOrd t.flags = flagOrd s.flags) ∧
    bitField t.flags 31 5 = bitField s.flags 31 5

/-- R17, R21: no command reads `FLAGS` or `CCNT`: other contents of theirs change nothing but `FLAGS` and `CCNT`. -/
def Obligations.NoCommandReadsFlagsOrCounter : Prop :=
  ∀ (i : Instr) (s : State) (flags' ccnt' : BitVec 32), ∃ t flags'' ccnt'',
    exec i s = .next t ∧
    exec i { s with flags := flags', ccnt := ccnt' } = .next { t with flags := flags'', ccnt := ccnt'' }

/-- R153, R154: a faulting command has had no effect but the fault record: `FSTAT`, and `FCMD` with its own word. -/
def Obligations.FaultingCommandChangesOnlyTheFaultRecord : Prop :=
  ∀ (i : Instr) (s t : State), s.faulted = false → exec i s = .next t → t.faulted = true →
    t = { s with fstat := t.fstat, fcmd := encode i }

/-- R152: which command can raise which fault after a successful decode; the thirteen others never fault. -/
def Obligations.CommandsRaiseOnlyTheirCauses : Prop :=
  ∀ (i : Instr) (s t : State), i.wellFormed = true → s.csrsLegal = true → s.faulted = false →
    exec i s = .next t → t.faulted = true →
    (i.opcode ∈ [.shl, .shr, .shli, .shri] ∧ statusCause t.fstat = 2) ∨
    (i.opcode ∈ [.minv, .mmul, .mconv, .powm] ∧ statusCause t.fstat = 3) ∨
    (i.opcode = .mmul ∧ statusCause t.fstat = 4)

/-! ## Constants and predicates -/

/-- R71, R72, R73, R74: the named constant in word 0, all higher words zero. -/
def Obligations.ConstantCommandsWriteTheirConstant : Prop :=
  ∀ (s : State) (rd : VReg), s.faulted = false →
    (encode (.czero rd)).toNat = 0x01000000 + rd.val * 0x100000 ∧
    (encode (.cone rd)).toNat = 0x02000000 + rd.val * 0x100000 ∧
    (encode (.ctwo rd)).toNat = 0x03000000 + rd.val * 0x100000 ∧
    (encode (.cthree rd)).toNat = 0x04000000 + rd.val * 0x100000 ∧
    (∃ x, x.words = 0 :: List.replicate (s.params.words - 1) 0 ∧
      exec (.czero rd) s = .next { s with v := s.v.set rd x, ccnt := s.ccnt + 1 }) ∧
    (∃ x, x.words = 1 :: List.replicate (s.params.words - 1) 0 ∧
      exec (.cone rd) s = .next { s with v := s.v.set rd x, ccnt := s.ccnt + 1 }) ∧
    (∃ x, x.words = 2 :: List.replicate (s.params.words - 1) 0 ∧
      exec (.ctwo rd) s = .next { s with v := s.v.set rd x, ccnt := s.ccnt + 1 }) ∧
    (∃ x, x.words = 3 :: List.replicate (s.params.words - 1) 0 ∧
      exec (.cthree rd) s = .next { s with v := s.v.set rd x, ccnt := s.ccnt + 1 })

/-- R75: the word register in word 0, the rest zero. -/
def Obligations.FromwWritesTheWordAndZeros : Prop :=
  ∀ (s : State) (rd : VReg) (ra : SReg), s.faulted = false →
    (encode (.fromw rd ra)).toNat = 0x05000000 + rd.val * 0x100000 + ra.val * 0x10000 ∧
    ∃ x, x.words = s.readS ra :: List.replicate (s.params.words - 1) 0 ∧
      exec (.fromw rd ra) s = .next { s with v := s.v.set rd x, ccnt := s.ccnt + 1 }

/-- R76: `Z` is 1 iff every word is zero; no other flag and no register is written. -/
def Obligations.IszWritesTheZeroFlagOnly : Prop :=
  ∀ (s : State) (ra : VReg), s.faulted = false →
    (encode (.isz ra)).toNat = 0x08000000 + ra.val * 0x10000 ∧
    ∃ f, (flagZ f = 1 ↔ ∀ x ∈ (s.readV ra).words, x = 0) ∧ bitField f 31 1 = bitField s.flags 31 1 ∧
      exec (.isz ra) s = .next { s with flags := f, ccnt := s.ccnt + 1 }

/-- R77: `L` is the value modulo 2, bit 0 of word 0; no other flag and no register is written. -/
def Obligations.LowbWritesTheParityFlagOnly : Prop :=
  ∀ (s : State) (ra : VReg), s.faulted = false →
    (encode (.lowb ra)).toNat = 0x09000000 + ra.val * 0x10000 ∧
    ∃ f, flagL f = (s.readV ra).value % 2 ∧ flagL f = ((s.readV ra).word 0).toNat % 2 ∧
      bitField f 0 0 = bitField s.flags 0 0 ∧ bitField f 31 2 = bitField s.flags 31 2 ∧
      exec (.lowb ra) s = .next { s with flags := f, ccnt := s.ccnt + 1 }

/-! ## Comparator -/

/-- R81: `E` is 1 iff all words are equal; no other flag and no register is written. -/
def Obligations.EquWritesTheEqualFlagOnly : Prop :=
  ∀ (s : State) (ra rb : VReg), s.faulted = false →
    (encode (.equ ra rb)).toNat = 0x0A000000 + ra.val * 0x10000 + rb.val * 0x1000 ∧
    ∃ f, (flagE f = 1 ↔ (s.readV ra).words = (s.readV rb).words) ∧
      bitField f 1 0 = bitField s.flags 1 0 ∧ bitField f 31 3 = bitField s.flags 31 3 ∧
      exec (.equ ra rb) s = .next { s with flags := f, ccnt := s.ccnt + 1 }

/-- R80, R82: `ORD` is the unsigned comparison of the two integers: 1 Less, 2 Greater, 0 Equal; no other flag and no
register is written. -/
def Obligations.CmpWritesTheOrderOfTheIntegers : Prop :=
  ∀ (s : State) (ra rb : VReg), s.faulted = false →
    (encode (.cmp ra rb)).toNat = 0x0B000000 + ra.val * 0x10000 + rb.val * 0x1000 ∧
    ∃ f, flagOrd f = (if (s.readV ra).value < (s.readV rb).value then 1
        else if (s.readV rb).value < (s.readV ra).value then 2 else 0) ∧
      bitField f 2 0 = bitField s.flags 2 0 ∧ bitField f 31 5 = bitField s.flags 31 5 ∧
      exec (.cmp ra rb) s = .next { s with flags := f, ccnt := s.ccnt + 1 }

/-- R83: after EQU and CMP, in either order, `E = 1` iff `ORD = 0`; `ORD` is never 3; `CMP va, vb` gives 1 iff
`CMP vb, va` gives 2. -/
def Obligations.EquAgreesWithCmp : Prop :=
  ∀ (s : State) (ra rb : VReg), s.faulted = false →
    ∃ t t' u u' w, exec (.equ ra rb) s = .next t ∧ exec (.cmp ra rb) t = .next t' ∧
      exec (.cmp ra rb) s = .next u ∧ exec (.equ ra rb) u = .next u' ∧ exec (.cmp rb ra) s = .next w ∧
      (flagE t'.flags = 1 ↔ flagOrd t'.flags = 0) ∧ (flagE u'.flags = 1 ↔ flagOrd u'.flags = 0) ∧
      flagOrd t'.flags ≠ 3 ∧ flagOrd u.flags ≠ 3 ∧ (flagOrd u.flags = 1 ↔ flagOrd w.flags = 2)

/-! ## Adder and subtractor -/

/-- R85, R89: `Value(a) + w` modulo `R`, no flag, no fault. -/
def Obligations.AddwWritesTheSumModR : Prop :=
  ∀ (s : State) (rd ra : VReg) (rb : SReg), s.faulted = false →
    (encode (.addw rd ra rb)).toNat =
      0x10000000 + rd.val * 0x100000 + ra.val * 0x10000 + rb.val * 0x1000 ∧
    ∃ x, x.value = ((s.readV ra).value + (s.readS rb).toNat) % s.params.radix ∧
      exec (.addw rd ra rb) s = .next { s with v := s.v.set rd x, ccnt := s.ccnt + 1 }

/-- R85, R90: `Value(a) + Value(b)` modulo `R`, no flag, no fault. -/
def Obligations.AddWritesTheSumModR : Prop :=
  ∀ (s : State) (rd ra rb : VReg), s.faulted = false →
    (encode (.add rd ra rb)).toNat =
      0x11000000 + rd.val * 0x100000 + ra.val * 0x10000 + rb.val * 0x1000 ∧
    ∃ x, x.value = ((s.readV ra).value + (s.readV rb).value) % s.params.radix ∧
      exec (.add rd ra rb) s = .next { s with v := s.v.set rd x, ccnt := s.ccnt + 1 }

/-- R85, R91: `Value(a) - Value(b)` modulo `R` (plus `R` when `a < b`), no flag, no fault. -/
def Obligations.SubWritesTheDifferenceModR : Prop :=
  ∀ (s : State) (rd ra rb : VReg), s.faulted = false →
    (encode (.sub rd ra rb)).toNat =
      0x12000000 + rd.val * 0x100000 + ra.val * 0x10000 + rb.val * 0x1000 ∧
    ∃ x, x.value = (if (s.readV rb).value ≤ (s.readV ra).value then (s.readV ra).value - (s.readV rb).value
        else (s.readV ra).value + s.params.radix - (s.readV rb).value) ∧
      exec (.sub rd ra rb) s = .next { s with v := s.v.set rd x, ccnt := s.ccnt + 1 }

/-- R85, R90, R91: addition is commutative, and subtracting the second operand again gives the first back, for all
operands, overflowing or not. -/
def Obligations.SubUndoesAddAndAddCommutes : Prop :=
  ∀ (s : State) (rd ra rb : VReg), s.faulted = false →
    exec (.add rd ra rb) s = exec (.add rd rb ra) s ∧
    (rd ≠ rb → ∃ t u, exec (.add rd ra rb) s = .next t ∧ exec (.sub rd rd rb) t = .next u ∧
      (u.readV rd).value = (s.readV ra).value)

/-! ## Shifter -/

/-- R98: below `BITS`, `(Value(a) * 2^k) mod R` with the whole word `s[rb]` as `k`; else the fault `SHIFT_RANGE` and
nothing written. -/
def Obligations.ShlShiftsLeftOrFaults : Prop :=
  ∀ (s : State) (rd ra : VReg) (rb : SReg), s.faulted = false →
    (encode (.shl rd ra rb)).toNat =
      0x18000000 + rd.val * 0x100000 + ra.val * 0x10000 + rb.val * 0x1000 ∧
    ((s.readS rb).toNat < s.params.bits →
      ∃ x, x.value = (s.readV ra).value * 2 ^ (s.readS rb).toNat % s.params.radix ∧
        exec (.shl rd ra rb) s = .next { s with v := s.v.set rd x, ccnt := s.ccnt + 1 }) ∧
    (s.params.bits ≤ (s.readS rb).toNat → s.csrsLegal = true →
      exec (.shl rd ra rb) s = .next { s with fstat := 0x21, fcmd := encode (.shl rd ra rb) })

/-- R99: below `BITS`, `Value(a) div 2^k` with the whole word `s[rb]` as `k`; else the fault `SHIFT_RANGE` and nothing
written. -/
def Obligations.ShrShiftsRightOrFaults : Prop :=
  ∀ (s : State) (rd ra : VReg) (rb : SReg), s.faulted = false →
    (encode (.shr rd ra rb)).toNat =
      0x19000000 + rd.val * 0x100000 + ra.val * 0x10000 + rb.val * 0x1000 ∧
    ((s.readS rb).toNat < s.params.bits →
      ∃ x, x.value = (s.readV ra).value / 2 ^ (s.readS rb).toNat ∧
        exec (.shr rd ra rb) s = .next { s with v := s.v.set rd x, ccnt := s.ccnt + 1 }) ∧
    (s.params.bits ≤ (s.readS rb).toNat → s.csrsLegal = true →
      exec (.shr rd ra rb) s = .next { s with fstat := 0x21, fcmd := encode (.shr rd ra rb) })

/-- R100: below `BITS`, `(Value(a) * 2^k) mod R` with `k = imm8`; else the fault `SHIFT_RANGE` and nothing written. -/
def Obligations.ShliShiftsLeftOrFaults : Prop :=
  ∀ (s : State) (rd ra : VReg) (imm8 : BitVec 8), s.faulted = false →
    (encode (.shli rd ra imm8)).toNat =
      0x1A000000 + rd.val * 0x100000 + ra.val * 0x10000 + imm8.toNat ∧
    (imm8.toNat < s.params.bits →
      ∃ x, x.value = (s.readV ra).value * 2 ^ imm8.toNat % s.params.radix ∧
        exec (.shli rd ra imm8) s = .next { s with v := s.v.set rd x, ccnt := s.ccnt + 1 }) ∧
    (s.params.bits ≤ imm8.toNat → s.csrsLegal = true →
      exec (.shli rd ra imm8) s = .next { s with fstat := 0x21, fcmd := encode (.shli rd ra imm8) })

/-- R101: below `BITS`, `Value(a) div 2^k` with `k = imm8`; else the fault `SHIFT_RANGE` and nothing written. -/
def Obligations.ShriShiftsRightOrFaults : Prop :=
  ∀ (s : State) (rd ra : VReg) (imm8 : BitVec 8), s.faulted = false →
    (encode (.shri rd ra imm8)).toNat =
      0x1B000000 + rd.val * 0x100000 + ra.val * 0x10000 + imm8.toNat ∧
    (imm8.toNat < s.params.bits →
      ∃ x, x.value = (s.readV ra).value / 2 ^ imm8.toNat ∧
        exec (.shri rd ra imm8) s = .next { s with v := s.v.set rd x, ccnt := s.ccnt + 1 }) ∧
    (s.params.bits ≤ imm8.toNat → s.csrsLegal = true →
      exec (.shri rd ra imm8) s = .next { s with fstat := 0x21, fcmd := encode (.shri rd ra imm8) })

/-- R95, R102: left after right clears the low `k` bits; right after left drops the top `k` bits. The second clause is
the spec's own inference (R102, `[derived: from rule R95]`). -/
def Obligations.ShiftRoundTripsAreLossy : Prop :=
  ∀ (bits w k : Nat) (a : Wide bits w), 0 < k → k < bits →
    (shlWide (shrWide a k) k).value = a.value - a.value % 2 ^ k ∧
    (shrWide (shlWide a k) k).value = a.value % 2 ^ (w * bits - k)

/-! ## Extended Euclid -/

/-- R106, R107: EGCD with `rd != rc` writes the pair of the recursion of R106, given here as ANY function `e` that obeys
it. The form `rd = rc` is `EgcdWithEqualDestinationsIsIllegal`. -/
def Obligations.EgcdWritesThePairOfTheRecursion : Prop :=
  ∀ (s : State) (rd rc ra rb : SReg)
    (e : Word s.params.bits → Word s.params.bits → Word s.params.bits × Word s.params.bits),
    s.faulted = false →
    (∀ b, e 0 b = (0, 1)) →
    (∀ a b, a ≠ 0 → e a b = ((e (b % a) a).2 - b / a * (e (b % a) a).1, (e (b % a) a).1)) →
    (encode (.egcd rd rc ra rb)).toNat =
      0x20000000 + rd.val * 0x100000 + ra.val * 0x10000 + rb.val * 0x1000 + rc.val * 0x100 ∧
    (rd ≠ rc → exec (.egcd rd rc ra rb) s = .next
      { s with
        s := (s.s.set rd (e (s.readS ra) (s.readS rb)).1).set rc (e (s.readS ra) (s.readS rb)).2
        ccnt := s.ccnt + 1 })

/-- R55, R107: a word of EGCD's opcode with `rd = rc` is illegal and faults `ILLEGAL_COMMAND`, whatever its other
fields; so does the command itself, outside the decoder (log 9, DEDUCED). `port` and `answer` are the model's (log 5,
log 6). -/
def Obligations.EgcdWithEqualDestinationsIsIllegal : Prop :=
  ∀ s : State, s.csrsLegal = true → s.faulted = false →
    (∀ (c : BitVec 32) (rest : List (PortOp s.params.bits)),
      bitField c 31 24 = 0x20 → bitField c 22 20 = bitField c 10 8 → s.port = .issue c :: rest →
      step s = .next { s with port := rest, answer := .none, fstat := 0x11, fcmd := c }) ∧
    (∀ rd ra rb : SReg,
      exec (.egcd rd rd ra rb) s = .next { s with fstat := 0x11, fcmd := encode (.egcd rd rd ra rb) })

/-- R106: what the two result words of EGCD mean: `(a*x + b*y) mod B = gcd(a, b)`; the spec's own inference (R106, marked
`[derived: ...]`). -/
def Obligations.EgcdResultsAreBezoutCoefficients : Prop :=
  ∀ (s : State) (rd rc ra rb : SReg), s.faulted = false → rd ≠ rc →
    ∃ t, exec (.egcd rd rc ra rb) s = .next t ∧
      ((s.readS ra).toNat * (t.readS rd).toNat + (s.readS rb).toNat * (t.readS rc).toNat) % s.params.base =
        Nat.gcd (s.readS ra).toNat (s.readS rb).toNat

/-- R107, its table of corner cases: `a = 0`, `b = 0`, `a = b`, `a = 1` at every width, three rows at 8 bits; the spec's
own inference (R107, `derived from rule R106`). -/
def Obligations.EgcdCornerCases : Prop :=
  (∀ (p : Params) (b : Word p.bits), egcd 0 b = (0, 1)) ∧
  (∀ (p : Params) (a : Word p.bits), a ≠ 0 → egcd a 0 = (1, 0)) ∧
  (∀ (p : Params) (a : Word p.bits), a ≠ 0 → egcd a a = (1, 0)) ∧
  (∀ (p : Params) (b : Word p.bits), egcd 1 b = (1, 0)) ∧
  egcd (12 : Word 8) 18 = (0xFF, 0x01) ∧ egcd (240 : Word 8) 46 = (0xF7, 0x2F) ∧
  egcd (35 : Word 8) 15 = (0x01, 0xFE)

/-- R108: the iterative form returns exactly the pair of the recursion; the spec's own inference (R108, marked
`[derived: ...]`). -/
def Obligations.IterativeEuclidReturnsTheSamePair : Prop :=
  ∀ (bits : Nat) (a b : Word bits), egcdIter a b = egcd a b

/-- R109, R110: for an odd word, the unique word `x` with `wmul(x, n) = B - 1`; for an even one the fault
`EVEN_MODULUS` and nothing written. -/
def Obligations.MinvWritesTheNegatedInverseOrFaults : Prop :=
  ∀ (s : State) (rd ra : SReg), s.faulted = false →
    (encode (.minv rd ra)).toNat = 0x21000000 + rd.val * 0x100000 + ra.val * 0x10000 ∧
    ((s.readS ra).toNat % 2 = 1 →
      ∃ x, (x * s.readS ra).toNat = s.params.base - 1 ∧
        (∀ y : Word s.params.bits, (y * s.readS ra).toNat = s.params.base - 1 → y = x) ∧
        exec (.minv rd ra) s = .next { s with s := s.s.set rd x, ccnt := s.ccnt + 1 }) ∧
    ((s.readS ra).toNat % 2 = 0 → s.csrsLegal = true →
      exec (.minv rd ra) s = .next { s with fstat := 0x31, fcmd := encode (.minv rd ra) })

/-- R109, R111: `wmul(minv(n), n) = B - 1` for odd `n`, and `minv` is a bijection on the odd words; the spec's own
inference (R111, `[derived: from rule R109]`). -/
def Obligations.MinvIsABijectionOnOddWords : Prop :=
  ∀ p : Params,
    (∀ n : Word p.bits, n.toNat % 2 = 1 → (minv n * n).toNat = p.base - 1 ∧ (minv n).toNat % 2 = 1) ∧
    (∀ m : Word p.bits, m.toNat % 2 = 1 → ∃! n : Word p.bits, n.toNat % 2 = 1 ∧ minv n = m)

/-! ## Montgomery unit -/

/-- R117, R119, R120: even modulus, then wrong `mc`, fault with nothing written; else `T = (a*b + M*n)/R` less at most
one `n`, congruent to `a*b*R^-1`, below `a + n` before the subtraction, and below `n` when `a < n` or `b < n`. The closed form of `T` and the bounds are
the spec's own inferences (R117 and R119, marked `[derived: ...]`). -/
def Obligations.MmulWritesTheMontgomeryProductOrFaults : Prop :=
  ∀ (s : State) (rd ra rb rc : VReg) (re : SReg), s.faulted = false →
    (encode (.mmul rd ra rb rc re)).toNat =
      0x28000000 + rd.val * 0x100000 + ra.val * 0x10000 + rb.val * 0x1000 + rc.val * 0x100 + re.val * 0x10 ∧
    (((s.readV rc).word 0).toNat % 2 = 0 → s.csrsLegal = true →
      exec (.mmul rd ra rb rc re) s = .next { s with fstat := 0x31, fcmd := encode (.mmul rd ra rb rc re) }) ∧
    (((s.readV rc).word 0).toNat % 2 = 1 → (s.readS re * (s.readV rc).word 0).toNat ≠ s.params.base - 1 →
      s.csrsLegal = true →
      exec (.mmul rd ra rb rc re) s = .next { s with fstat := 0x41, fcmd := encode (.mmul rd ra rb rc re) }) ∧
    (((s.readV rc).word 0).toNat % 2 = 1 → (s.readS re * (s.readV rc).word 0).toNat = s.params.base - 1 →
      ∃ (x : Wide s.params.bits s.params.words) (t m : Nat),
        m < s.params.radix ∧
        s.params.radix * t = (s.readV ra).value * (s.readV rb).value + m * (s.readV rc).value ∧
        t < (s.readV ra).value + (s.readV rc).value ∧
        x.value = (if (s.readV rc).value ≤ t then t - (s.readV rc).value else t) ∧
        x.value * s.params.radix % (s.readV rc).value =
          (s.readV ra).value * (s.readV rb).value % (s.readV rc).value ∧
        ((s.readV ra).value < (s.readV rc).value ∨ (s.readV rb).value < (s.readV rc).value →
          x.value < (s.readV rc).value) ∧
        exec (.mmul rd ra rb rc re) s = .next { s with v := s.v.set rd x, ccnt := s.ccnt + 1 })

/-- R118: the word-level rendering, with its `W + 2` accumulator words, computes exactly the function of R117;
the spec's own inference (R118, marked `[derived: ...]`). -/
def Obligations.WordLevelDatapathComputesTheProduct : Prop :=
  ∀ (bits w : Nat) (a b n : Wide bits w) (mc : Word bits), 0 < bits →
    (mc * n.word 0).toNat = 2 ^ bits - 1 → datapathMmul a b n mc = mmul a b n mc

/-- R124: the identity property, the way into Montgomery form and the way out, for an odd modulus and its `mc`. -/
def Obligations.MontgomeryIdentityAndConversions : Prop :=
  ∀ (p : Params) (a n : Wide p.bits p.words) (mc : Word p.bits),
    n.value % 2 = 1 → (mc * n.word 0).toNat = p.base - 1 →
    (mmul (mconv n) (fromWord 1) n mc).value = p.radix % n.value ∧
    (a.value < n.value → (mmul a (mmul (mconv n) (fromWord 1) n mc) n mc).value = a.value) ∧
    (mmul a (mconv n) n mc).value = a.value * p.radix % n.value ∧
    (mmul (mmul a (mconv n) n mc) (fromWord 1) n mc).value = a.value % n.value

/-- R121, R123: `R^2 mod n` for an odd modulus; for an even one the fault `EVEN_MODULUS` and nothing written. -/
def Obligations.MconvWritesRSquaredModNOrFaults : Prop :=
  ∀ (s : State) (rd rc : VReg), s.faulted = false →
    (encode (.mconv rd rc)).toNat = 0x29000000 + rd.val * 0x100000 + rc.val * 0x100 ∧
    (((s.readV rc).word 0).toNat % 2 = 1 →
      ∃ x, x.value = s.params.radix ^ 2 % (s.readV rc).value ∧
        exec (.mconv rd rc) s = .next { s with v := s.v.set rd x, ccnt := s.ccnt + 1 }) ∧
    (((s.readV rc).word 0).toNat % 2 = 0 → s.csrsLegal = true →
      exec (.mconv rd rc) s = .next { s with fstat := 0x31, fcmd := encode (.mconv rd rc) })

/-! ## Exponentiation -/

/-- R130, R132: `(base ^ e) mod n` for an odd modulus (`0 ^ 0 = 1`); for an even one the fault `EVEN_MODULUS` and
nothing written. -/
def Obligations.PowmWritesThePowerModNOrFaults : Prop :=
  ∀ (s : State) (rd ra rb rc : VReg), s.faulted = false →
    (encode (.powm rd ra rb rc)).toNat =
      0x30000000 + rd.val * 0x100000 + ra.val * 0x10000 + rb.val * 0x1000 + rc.val * 0x100 ∧
    (((s.readV rc).word 0).toNat % 2 = 1 →
      ∃ x, x.value = (s.readV ra).value ^ (s.readV rb).value % (s.readV rc).value ∧
        exec (.powm rd ra rb rc) s = .next { s with v := s.v.set rd x, ccnt := s.ccnt + 1 }) ∧
    (((s.readV rc).word 0).toNat % 2 = 0 → s.csrsLegal = true →
      exec (.powm rd ra rb rc) s = .next { s with fstat := 0x31, fcmd := encode (.powm rd ra rb rc) })

/-- R142, R133: two Montgomery squarings with `RR` and POWM with exponent two give the same square: the two ways the
host program may square `x` below an odd `n`. -/
def Obligations.PowmByTwoIsASquareByTwoMmuls : Prop :=
  ∀ (p : Params) (x e n : Wide p.bits p.words) (mc : Word p.bits),
    n.value % 2 = 1 → (mc * n.word 0).toNat = p.base - 1 → x.value < n.value → e.value = 2 →
    mmul (mmul x x n mc) (mconv n) n mc = powm x e n

/-! ## Host port -/

/-- R32: `WRV` writes one word of one wide register, `RDV` returns it and changes nothing. `port` and `answer` are the
model's own fields (log 5, log 6). -/
def Obligations.WrvAndRdvReachOneWord : Prop :=
  ∀ (s : State) (rest : List (PortOp s.params.bits)) (r : VReg) (j : Nat), j < s.params.words →
    (∀ d, s.faulted = false → s.port = .wrv r.val j d :: rest →
      ∃ x, x.words = (s.readV r).words.set j d ∧
        step s = .next { s with v := s.v.set r x, port := rest, answer := .none }) ∧
    (s.port = .rdv r.val j :: rest →
      step s = .next { s with port := rest, answer := .word ((s.readV r).word j) })

/-- R33: `WRS` writes one word register, `RDS` returns it and changes nothing. `port` and `answer` are the model's own
fields (log 5, log 6). -/
def Obligations.WrsAndRdsReachOneRegister : Prop :=
  ∀ (s : State) (rest : List (PortOp s.params.bits)) (r : SReg),
    (∀ d, s.faulted = false → s.port = .wrs r.val d :: rest →
      step s = .next { s with s := s.s.set r d, port := rest, answer := .none }) ∧
    (s.port = .rds r.val :: rest → step s = .next { s with port := rest, answer := .word (s.readS r) })

/-- R34: `RDC` returns CSR `k` and changes nothing, faulted or not. `port` and `answer` are the model's own fields
(log 5, log 6). -/
def Obligations.RdcReturnsTheCsr : Prop :=
  ∀ (s : State) (rest : List (PortOp s.params.bits)),
    (s.port = .rdc 0 :: rest → step s = .next { s with port := rest, answer := .csr s.flags }) ∧
    (s.port = .rdc 1 :: rest → step s = .next { s with port := rest, answer := .csr s.fstat }) ∧
    (s.port = .rdc 2 :: rest → step s = .next { s with port := rest, answer := .csr s.fcmd }) ∧
    (s.port = .rdc 3 :: rest → step s = .next { s with port := rest, answer := .csr s.ccnt })

/-- R36, R151, R153: an index out of range, or a write to a CSR, raises `PORT_ACCESS`: `FSTAT = 0x51`, `FCMD = 0`,
nothing written, a read returns 0. `port`, `answer` and the write to a CSR as an operation are the model's (log 5, log
6, log 7). -/
def Obligations.PortAccessOutOfRangeFaults : Prop :=
  ∀ (s : State) (rest : List (PortOp s.params.bits)), s.csrsLegal = true → s.faulted = false →
    (∀ r j d, ¬ (r < 8 ∧ j < s.params.words) → s.port = .wrv r j d :: rest →
      step s = .next { s with port := rest, answer := .none, fstat := 0x51, fcmd := 0 }) ∧
    (∀ r j, ¬ (r < 8 ∧ j < s.params.words) → s.port = .rdv r j :: rest →
      step s = .next { s with port := rest, answer := .word 0, fstat := 0x51, fcmd := 0 }) ∧
    (∀ r d, ¬ r < 8 → s.port = .wrs r d :: rest →
      step s = .next { s with port := rest, answer := .none, fstat := 0x51, fcmd := 0 }) ∧
    (∀ r, ¬ r < 8 → s.port = .rds r :: rest →
      step s = .next { s with port := rest, answer := .word 0, fstat := 0x51, fcmd := 0 }) ∧
    (∀ k, ¬ k < 4 → s.port = .rdc k :: rest →
      step s = .next { s with port := rest, answer := .csr 0, fstat := 0x51, fcmd := 0 }) ∧
    (∀ k d, s.port = .wrc k d :: rest →
      step s = .next { s with port := rest, answer := .none, fstat := 0x51, fcmd := 0 })

/-- R35, R41: writing all `W` words of `x` with `WRV`, in storage order, makes the register `x`, whatever it held; the
run takes `W` steps and changes no other register and no CSR. `port` and `answer` are the model's (log 5, log 6). -/
def Obligations.WritingEveryWordLoadsTheValue : Prop :=
  ∀ (s : State) (r : VReg) (x : Wide s.params.bits s.params.words), s.faulted = false →
    s.port = (List.range s.params.words).map (fun j => PortOp.wrv r.val j (x.word j)) →
    Host.Core.run Sys2Proof.core s.params.words s = .next { s with v := s.v.set r x, port := [], answer := .none }

/-- R39: a write performed twice leaves what it leaves once. -/
def Obligations.WritesAreIdempotent : Prop :=
  ∀ (s : State) (rest : List (PortOp s.params.bits)) (op : PortOp s.params.bits),
    ((∃ r j d, op = .wrv r j d) ∨ (∃ r d, op = .wrs r d)) →
    ∃ t u, step { s with port := op :: rest } = .next t ∧
      step { s with port := op :: op :: rest } = .next u ∧ step u = .next t
end

