-- ==== Sys2Proof/Laws/WideValue.lean ====
section
/-!
SUPPORT. Wide values as numbers (R8, R11): the value is below `R`, equal values are equal words, and `Wide.ofNat`,
`Wide.ofWords`, `Wide.word`, `Wide.setWord` in terms of the value.
-/

namespace Sys2Proof

theorem wordsValue_lt {bits : Nat} (l : List (Word bits)) : wordsValue l < 2 ^ (l.length * bits) := by
  induction l with
  | nil => simp [wordsValue]
  | cons x xs ih =>
    have hx := x.isLt
    have hpow : 2 ^ ((x :: xs).length * bits) = 2 ^ bits * 2 ^ (xs.length * bits) := by
      rw [List.length_cons, Nat.succ_mul, Nat.add_comm, Nat.pow_add]
    rw [hpow, wordsValue]
    have h : 2 ^ bits * (wordsValue xs + 1) ≤ 2 ^ bits * 2 ^ (xs.length * bits) := Nat.mul_le_mul_left _ ih
    rw [Nat.mul_add] at h
    omega

/-- A wide value is below `R = 2^(W*BITS)` (R8, R11). -/
theorem Wide.value_lt {bits w : Nat} (a : Wide bits w) : a.value < 2 ^ (w * bits) := by
  have h := wordsValue_lt a.words
  rwa [a.length_eq] at h

theorem wordsValue_inj {bits : Nat} {l m : List (Word bits)} (hlen : l.length = m.length)
    (h : wordsValue l = wordsValue m) : l = m := by
  induction l generalizing m with
  | nil => cases m with
    | nil => rfl
    | cons _ _ => simp at hlen
  | cons x xs ih => cases m with
    | nil => simp at hlen
    | cons y ys =>
      simp only [wordsValue] at h
      have hx := x.isLt
      have hy := y.isLt
      have h0 : x.toNat = y.toNat := by
        have := congrArg (· % 2 ^ bits) h
        simpa [Nat.add_mul_mod_self_left, Nat.mod_eq_of_lt hx, Nat.mod_eq_of_lt hy] using this
      have h1 : wordsValue xs = wordsValue ys := by
        have h2 : 2 ^ bits * wordsValue xs = 2 ^ bits * wordsValue ys := by omega
        exact Nat.eq_of_mul_eq_mul_left (Nat.two_pow_pos bits) h2
      rw [BitVec.eq_of_toNat_eq h0, ih (by simpa using hlen) h1]

/-- A wide value and its integer are used interchangeably (R8): equal values are equal words. -/
theorem Wide.eq_of_value {bits w : Nat} {a b : Wide bits w} (h : a.value = b.value) : a = b := by
  obtain ⟨l, hl⟩ := a
  obtain ⟨m, hm⟩ := b
  have : l = m := wordsValue_inj (hl.trans hm.symm) h
  subst this
  rfl

theorem wordsValue_wordsOfNat {bits : Nat} (count n : Nat) :
    wordsValue (wordsOfNat count n : List (Word bits)) = n % 2 ^ (count * bits) := by
  induction count generalizing n with
  | zero => simp [wordsOfNat, wordsValue, Nat.mod_one]
  | succ count ih =>
    rw [wordsOfNat, wordsValue, ih, BitVec.toNat_ofNat, Nat.succ_mul, Nat.add_comm (count * bits), Nat.pow_add,
      Nat.mod_mul]

/-- `Wide.ofNat` narrows modulo `R` (R8). -/
theorem Wide.value_ofNat {bits w : Nat} (n : Nat) : (Wide.ofNat n : Wide bits w).value = n % 2 ^ (w * bits) :=
  wordsValue_wordsOfNat w n

theorem takeWords_of_length {bits count : Nat} {l : List (Word bits)} (h : l.length = count) :
    takeWords count l = l := by
  induction l generalizing count with
  | nil => subst h; rfl
  | cons x xs ih =>
    cases count with
    | zero => simp at h
    | succ count => rw [takeWords, ih (by simpa using h)]

/-- A list of exactly `W` words is taken as it is. -/
theorem Wide.value_ofWords {bits w : Nat} {l : List (Word bits)} (h : l.length = w) :
    (Wide.ofWords l : Wide bits w).value = wordsValue l := by
  show wordsValue (takeWords w l) = _
  rw [takeWords_of_length h]

theorem wordsValue_takeWords_nil {bits : Nat} (count : Nat) :
    wordsValue (takeWords count ([] : List (Word bits))) = 0 := by
  induction count with
  | zero => rfl
  | succ count ih => simp [takeWords, wordsValue, ih]

theorem wordsValue_append {bits : Nat} (l m : List (Word bits)) :
    wordsValue (l ++ m) = wordsValue l + 2 ^ (l.length * bits) * wordsValue m := by
  induction l with
  | nil => simp [wordsValue]
  | cons x xs ih =>
    have hpow : 2 ^ ((x :: xs).length * bits) = 2 ^ bits * 2 ^ (xs.length * bits) := by
      rw [List.length_cons, Nat.succ_mul, Nat.add_comm, Nat.pow_add]
    rw [List.cons_append, wordsValue, wordsValue, ih, hpow, Nat.mul_add, Nat.mul_assoc, Nat.add_assoc]

/-- Word `j` of a wide value: `(Value(a) div B^j) mod B` (R8). -/
theorem wordsValue_getD {bits : Nat} (l : List (Word bits)) (j : Nat) :
    (l.getD j 0).toNat = wordsValue l / 2 ^ (bits * j) % 2 ^ bits := by
  induction l generalizing j with
  | nil => simp [wordsValue]
  | cons x xs ih =>
    have hx := x.isLt
    cases j with
    | zero => simp [wordsValue, Nat.mod_eq_of_lt hx]
    | succ j =>
      rw [List.getD_cons_succ, ih, wordsValue, Nat.mul_succ, Nat.add_comm (bits * j), Nat.pow_add,
        ← Nat.div_div_eq_div_mul, Nat.add_mul_div_left _ _ (Nat.two_pow_pos bits), Nat.div_eq_of_lt hx, Nat.zero_add]

theorem Wide.toNat_word {bits w : Nat} (a : Wide bits w) (j : Nat) :
    (a.word j).toNat = a.value / 2 ^ (bits * j) % 2 ^ bits :=
  wordsValue_getD a.words j

/-- The parity of a wide value is the parity of its word 0 (R77, R120), for words of at least one bit. -/
theorem Wide.word_zero_mod_two {bits w : Nat} (hb : 0 < bits) (a : Wide bits w) :
    (a.word 0).toNat % 2 = a.value % 2 := by
  rw [Wide.toNat_word, Nat.mul_zero, Nat.pow_zero, Nat.div_one]
  exact Nat.mod_mod_of_dvd _ (dvd_pow_self 2 (by omega))

/-- Reading back the word just written (R32). -/
theorem Wide.word_setWord_same {bits w : Nat} (a : Wide bits w) {j : Nat} (hj : j < w) (x : Word bits) :
    (a.setWord j x).word j = x := by
  have h : j < a.words.length := by rw [a.length_eq]; exact hj
  simp [Wide.word, Wide.setWord, h]

/-- The other words of a wide value are unchanged by writing one (R32). -/
theorem Wide.word_setWord_ne {bits w : Nat} (a : Wide bits w) {j k : Nat} (hjk : j ≠ k) (x : Word bits) :
    (a.setWord j x).word k = a.word k := by
  simp [Wide.word, Wide.setWord, List.getElem?_set_ne hjk]

theorem WordWidth.bits_ge (b : WordWidth) : 8 ≤ b.bits := by cases b <;> decide

end Sys2Proof
end

