-- ==== Sys2Proof/Laws/CarryChain.lean ====
section
/-!
SUPPORT. The carry propagation unit in numbers (R86 to R91): what one word step and a whole chain compute.
-/

namespace Sys2Proof.Machine

theorem add_mod_of_lt {x y B : Nat} (hx : x < B) (hy : y < B) :
    (x + y) % B = if x + y < B then x + y else x + y - B := by
  split
  · exact Nat.mod_eq_of_lt ‹_›
  · rw [Nat.mod_eq_sub_mod (by omega), Nat.mod_eq_of_lt (by omega)]

theorem bitOf_le_one (b : Bool) : bitOf b ≤ 1 := by cases b <;> decide

theorem bitOf_decide (p : Prop) [Decidable p] : bitOf (decide p) = if p then 1 else 0 := by
  by_cases h : p <;> simp [bitOf, h]

theorem toNat_carryWord {bits : Nat} (hb : 0 < bits) (c : Bool) : (carryWord bits c).toNat = bitOf c := by
  have h2 : 2 ≤ 2 ^ bits := by
    calc 2 = 2 ^ 1 := rfl
      _ ≤ 2 ^ bits := Nat.pow_le_pow_right (by decide) hb
  have := bitOf_le_one c
  rw [carryWord, BitVec.toNat_ofNat, Nat.mod_eq_of_lt (by omega)]

/-- One step of the carry chain (R86): the sum word and the carry out make up `x + y + cin`. -/
theorem adc_spec {bits : Nat} (hb : 0 < bits) (x y : Word bits) (c : Bool) :
    (adc x y c).1.toNat + 2 ^ bits * bitOf (adc x y c).2 = x.toNat + y.toNat + bitOf c := by
  have hx := x.isLt
  have hy := y.isLt
  have h2 : 2 ≤ 2 ^ bits := by
    calc 2 = 2 ^ 1 := rfl
      _ ≤ 2 ^ bits := Nat.pow_le_pow_right (by decide) hb
  have hc := bitOf_le_one c
  have hs1 : (x + y).toNat = if x.toNat + y.toNat < 2 ^ bits then x.toNat + y.toNat
      else x.toNat + y.toNat - 2 ^ bits := by rw [BitVec.toNat_add, add_mod_of_lt hx hy]
  have hs1lt := (x + y).isLt
  have hs2 : (x + y + carryWord bits c).toNat = if (x + y).toNat + bitOf c < 2 ^ bits then (x + y).toNat + bitOf c
      else (x + y).toNat + bitOf c - 2 ^ bits := by
    rw [BitVec.toNat_add, toNat_carryWord hb, add_mod_of_lt hs1lt (by omega)]
  simp only [adc]
  rw [hs2, hs1]
  generalize 2 ^ bits = B at *
  generalize x.toNat = X at *
  generalize y.toNat = Y at *
  cases c <;> simp only [bitOf] at * <;> split_ifs at * <;> simp_all <;> omega

/-- One step of the borrow chain (R87): `x - y - bin` is the difference word less `B` times the borrow out. -/
theorem sbb_spec {bits : Nat} (hb : 0 < bits) (x y : Word bits) (c : Bool) :
    (sbb x y c).1.toNat + y.toNat + bitOf c = x.toNat + 2 ^ bits * bitOf (sbb x y c).2 := by
  have hx := x.isLt
  have hy := y.isLt
  have h2 : 2 ≤ 2 ^ bits := by
    calc 2 = 2 ^ 1 := rfl
      _ ≤ 2 ^ bits := Nat.pow_le_pow_right (by decide) hb
  have hc := bitOf_le_one c
  have sub_toNat : ∀ u v : Word bits, (u - v).toNat = if v.toNat ≤ u.toNat then u.toNat - v.toNat
      else u.toNat + 2 ^ bits - v.toNat := by
    intro u v
    have hu := u.isLt
    have hv := v.isLt
    rw [BitVec.toNat_sub]
    split
    · rw [show 2 ^ bits - v.toNat + u.toNat = u.toNat - v.toNat + 2 ^ bits by omega, Nat.add_mod_right,
        Nat.mod_eq_of_lt (by omega)]
    · rw [Nat.mod_eq_of_lt (by omega)]; omega
  have hd1 := sub_toNat x y
  have hd2 := sub_toNat (x - y) (carryWord bits c)
  rw [toNat_carryWord hb] at hd2
  have hborrow : bitOf (sbb x y c).2 = if x.toNat < y.toNat + bitOf c then 1 else 0 := by
    have : (sbb x y c).2 = decide (x.toNat < y.toNat + bitOf c) := by
      simp only [sbb, ← Bool.decide_or, decide_eq_decide]
      rw [hd1]
      split <;> omega
    rw [this, bitOf_decide]
  have hdiff : (sbb x y c).1.toNat = _ := hd2
  rw [hborrow, hdiff, hd1]
  generalize 2 ^ bits = B at *
  generalize bitOf c = C at *
  split_ifs <;> omega

theorem length_addcWords {bits : Nat} (l m : List (Word bits)) (c : Bool) (h : l.length = m.length) :
    (addcWords l m c).1.length = l.length := by
  induction l generalizing m c with
  | nil => simp [addcWords]
  | cons x xs ih => cases m with
    | nil => simp at h
    | cons y ys => simp [addcWords, ih ys _ (by simpa using h)]

theorem length_subbWords {bits : Nat} (l m : List (Word bits)) (c : Bool) (h : l.length = m.length) :
    (subbWords l m c).1.length = l.length := by
  induction l generalizing m c with
  | nil => simp [subbWords]
  | cons x xs ih => cases m with
    | nil => simp at h
    | cons y ys => simp [subbWords, ih ys _ (by simpa using h)]

theorem pow_cons_length {bits : Nat} (x : Word bits) (xs : List (Word bits)) :
    2 ^ ((x :: xs).length * bits) = 2 ^ bits * 2 ^ (xs.length * bits) := by
  rw [List.length_cons, Nat.succ_mul, Nat.add_comm, Nat.pow_add]

theorem addcWords_spec {bits : Nat} (hb : 0 < bits) (l m : List (Word bits)) (c : Bool) (h : l.length = m.length) :
    wordsValue (addcWords l m c).1 + 2 ^ (l.length * bits) * bitOf (addcWords l m c).2 =
      wordsValue l + wordsValue m + bitOf c := by
  induction l generalizing m c with
  | nil => cases m with
    | nil => simp [addcWords, wordsValue]
    | cons _ _ => simp at h
  | cons x xs ih => cases m with
    | nil => simp at h
    | cons y ys =>
      have hstep := adc_spec hb x y c
      have hrest := ih ys (adc x y c).2 (by simpa using h)
      rw [pow_cons_length]
      simp only [addcWords, wordsValue]
      have := congrArg (2 ^ bits * ·) hrest
      simp only [Nat.mul_add] at this
      rw [Nat.mul_assoc]
      omega

theorem subbWords_spec {bits : Nat} (hb : 0 < bits) (l m : List (Word bits)) (c : Bool) (h : l.length = m.length) :
    wordsValue (subbWords l m c).1 + wordsValue m + bitOf c =
      wordsValue l + 2 ^ (l.length * bits) * bitOf (subbWords l m c).2 := by
  induction l generalizing m c with
  | nil => cases m with
    | nil => simp [subbWords, wordsValue]
    | cons _ _ => simp at h
  | cons x xs ih => cases m with
    | nil => simp at h
    | cons y ys =>
      have hstep := sbb_spec hb x y c
      have hrest := ih ys (sbb x y c).2 (by simpa using h)
      rw [pow_cons_length]
      simp only [subbWords, wordsValue]
      have := congrArg (2 ^ bits * ·) hrest
      simp only [Nat.mul_add] at this
      rw [Nat.mul_assoc]
      omega

/-- `addc_wide` (R88): the wide sum and the carry out make up `a + b + cin`. -/
theorem addcWide_spec {bits w : Nat} (hb : 0 < bits) (a b : Wide bits w) (c : Bool) :
    (addcWide a b c).1.value + 2 ^ (w * bits) * bitOf (addcWide a b c).2 = a.value + b.value + bitOf c := by
  have hl : a.words.length = b.words.length := a.length_eq.trans b.length_eq.symm
  have h := addcWords_spec hb a.words b.words c hl
  rw [a.length_eq] at h
  have hv : (addcWide a b c).1.value = wordsValue (addcWords a.words b.words c).1 :=
    Wide.value_ofWords ((length_addcWords _ _ c hl).trans a.length_eq)
  rw [hv]
  exact h

/-- `subb_wide` (R88): `a - b - bin` is the wide difference less `R` times the borrow out. -/
theorem subbWide_spec {bits w : Nat} (hb : 0 < bits) (a b : Wide bits w) (c : Bool) :
    (subbWide a b c).1.value + b.value + bitOf c = a.value + 2 ^ (w * bits) * bitOf (subbWide a b c).2 := by
  have hl : a.words.length = b.words.length := a.length_eq.trans b.length_eq.symm
  have h := subbWords_spec hb a.words b.words c hl
  rw [a.length_eq] at h
  have hv : (subbWide a b c).1.value = wordsValue (subbWords a.words b.words c).1 :=
    Wide.value_ofWords ((length_subbWords _ _ c hl).trans a.length_eq)
  rw [hv]
  exact h

theorem length_addwWords {bits : Nat} (l : List (Word bits)) (c : Word bits) :
    (addwWords l c).length = l.length := by
  induction l generalizing c with
  | nil => rfl
  | cons x xs ih => rw [addwWords]; split <;> simp [ih]

theorem addwWords_spec {bits : Nat} (hb : 0 < bits) (l : List (Word bits)) (c : Word bits) (hl : l ≠ []) :
    ∃ cout, wordsValue (addwWords l c) + 2 ^ (l.length * bits) * bitOf cout = wordsValue l + c.toNat := by
  induction l generalizing c with
  | nil => exact absurd rfl hl
  | cons x xs ih =>
    rw [addwWords]
    split
    · exact ⟨false, by simp [bitOf, *]⟩
    · have hx := x.isLt
      have hc := c.isLt
      have hsum : (x + c).toNat + 2 ^ bits * bitOf (decide ((x + c).toNat < x.toNat)) = x.toNat + c.toNat := by
        rw [BitVec.toNat_add, add_mod_of_lt hx hc]
        generalize 2 ^ bits = B at *
        split <;> by_cases h : x.toNat + c.toNat < B <;> simp [bitOf] <;> split_ifs <;> omega
      rw [pow_cons_length]
      cases hxs : xs with
      | nil =>
        refine ⟨decide ((x + c).toNat < x.toNat), ?_⟩
        simpa [addwWords, wordsValue] using hsum
      | cons y ys =>
        obtain ⟨cout, h⟩ := ih (carryWord bits (decide ((x + c).toNat < x.toNat))) (by simp [hxs])
        rw [toNat_carryWord hb] at h
        refine ⟨cout, ?_⟩
        rw [← hxs]
        simp only [wordsValue]
        have := congrArg (2 ^ bits * ·) h
        simp only [Nat.mul_add] at this
        rw [Nat.mul_assoc]
        omega

theorem mod_of_add_mul {r R c x : Nat} (hr : r < R) (h : r + R * c = x) : r = x % R := by
  rw [← h, Nat.add_mul_mod_self_left, Nat.mod_eq_of_lt hr]

/-- ADD's closed form (R85): the sum modulo `R`. -/
theorem value_addcWide {bits w : Nat} (hb : 0 < bits) (a b : Wide bits w) (c : Bool) :
    (addcWide a b c).1.value = (a.value + b.value + bitOf c) % 2 ^ (w * bits) :=
  mod_of_add_mul (Wide.value_lt _) (addcWide_spec hb a b c)

/-- SUB's closed form (R85): the difference modulo `R`. -/
theorem value_subbWide {bits w : Nat} (hb : 0 < bits) (a b : Wide bits w) :
    (subbWide a b false).1.value = (a.value + 2 ^ (w * bits) - b.value) % 2 ^ (w * bits) := by
  have h := subbWide_spec hb a b false
  have ha := a.value_lt
  have hb' := b.value_lt
  have hr := (subbWide a b false).1.value_lt
  cases hc : (subbWide a b false).2 <;> simp only [hc, bitOf] at h
  · rw [show a.value + 2 ^ (w * bits) - b.value = (subbWide a b false).1.value + 2 ^ (w * bits) by simp at h; omega,
      Nat.add_mod_right, Nat.mod_eq_of_lt hr]
  · rw [show a.value + 2 ^ (w * bits) - b.value = (subbWide a b false).1.value by simp at h; omega,
      Nat.mod_eq_of_lt hr]

/-- ADDW's closed form (R85): the sum of a wide value and a word modulo `R`. -/
theorem value_addWord {bits w : Nat} (hb : 0 < bits) (hw : 0 < w) (a : Wide bits w) (x : Word bits) :
    (addWord a x).value = (a.value + x.toNat) % 2 ^ (w * bits) := by
  have hne : a.words ≠ [] := by
    intro h
    have := a.length_eq
    rw [h] at this
    simp at this
    omega
  obtain ⟨cout, h⟩ := addwWords_spec hb a.words x hne
  rw [a.length_eq] at h
  have hv : (addWord a x).value = wordsValue (addwWords a.words x) :=
    Wide.value_ofWords ((length_addwWords _ _).trans a.length_eq)
  exact mod_of_add_mul (Wide.value_lt _) (by rw [hv]; exact h)

end Sys2Proof.Machine
end

