-- ==== Sys2Proof/Laws/Flags.lean ====
section
/-!
SUPPORT. Fields of a 32-bit register in numbers (R8), and what writing one field of `FLAGS` or `FSTAT` does to every
field.
-/

namespace Sys2Proof.Machine

/-- The number a field write leaves, before it is narrowed, fits in the register. -/
theorem toNat_setBitField {r : BitVec 32} {hi lo x : Nat} (hlo : lo ≤ hi) (hhi : hi < 32) :
    (setBitField r hi lo x).toNat =
      r.toNat / 2 ^ (hi + 1) * 2 ^ (hi + 1) + x % 2 ^ (hi - lo + 1) * 2 ^ lo + r.toNat % 2 ^ lo := by
  have hr := r.isLt
  have hx : x % 2 ^ (hi - lo + 1) < 2 ^ (hi - lo + 1) := Nat.mod_lt _ (Nat.two_pow_pos _)
  have hl : r.toNat % 2 ^ lo < 2 ^ lo := Nat.mod_lt _ (Nat.two_pow_pos _)
  have hpow : 2 ^ (hi + 1) = 2 ^ (hi - lo + 1) * 2 ^ lo := by rw [← Nat.pow_add]; congr 1; omega
  have htop : 2 ^ 32 = 2 ^ (31 - hi) * 2 ^ (hi + 1) := by rw [← Nat.pow_add]; congr 1; omega
  have hq : r.toNat / 2 ^ (hi + 1) < 2 ^ (31 - hi) := by
    rw [Nat.div_lt_iff_lt_mul (Nat.two_pow_pos _), ← htop]
    exact hr
  have h1 : (x % 2 ^ (hi - lo + 1) + 1) * 2 ^ lo ≤ 2 ^ (hi + 1) := by
    rw [hpow]
    exact Nat.mul_le_mul_right _ hx
  have h2 : (r.toNat / 2 ^ (hi + 1) + 1) * 2 ^ (hi + 1) ≤ 2 ^ 32 := by
    rw [htop]
    exact Nat.mul_le_mul_right _ hq
  rw [Nat.add_mul] at h1 h2
  rw [setBitField, BitVec.toNat_ofNat, Nat.mod_eq_of_lt (by omega)]

/-- `FLAGS` after ISZ's write (R16, R17): `Z` is the answer, bits 31:1 are as before. -/
theorem setFlagZ_fields (r : BitVec 32) (b : Bool) :
    flagZ (setFlagZ r b) = bitOf b ∧ bitField (setFlagZ r b) 31 1 = bitField r 31 1 := by
  have h : (setFlagZ r b).toNat = _ := toNat_setBitField (by decide) (by decide)
  have hr := r.isLt
  simp only [flagZ, bitField, h]
  cases b <;> simp [bitOf] <;> omega

/-- `FLAGS` after LOWB's write (R16, R17): `L` is the answer, bits 0 and 31:2 are as before. -/
theorem setFlagL_fields (r : BitVec 32) (b : Bool) :
    flagL (setFlagL r b) = bitOf b ∧ bitField (setFlagL r b) 0 0 = bitField r 0 0 ∧
      bitField (setFlagL r b) 31 2 = bitField r 31 2 := by
  have h : (setFlagL r b).toNat = _ := toNat_setBitField (by decide) (by decide)
  have hr := r.isLt
  simp only [flagL, bitField, h]
  cases b <;> simp [bitOf] <;> omega

/-- `FLAGS` after EQU's write (R16, R17): `E` is the answer, bits 1:0 and 31:3 are as before. -/
theorem setFlagE_fields (r : BitVec 32) (b : Bool) :
    flagE (setFlagE r b) = bitOf b ∧ bitField (setFlagE r b) 1 0 = bitField r 1 0 ∧
      bitField (setFlagE r b) 31 3 = bitField r 31 3 := by
  have h : (setFlagE r b).toNat = _ := toNat_setBitField (by decide) (by decide)
  have hr := r.isLt
  simp only [flagE, bitField, h]
  cases b <;> simp [bitOf] <;> omega

/-- `FLAGS` after CMP's write (R16, R17): `ORD` is the code, bits 2:0 and 31:5 are as before. -/
theorem setFlagOrd_fields (r : BitVec 32) (o : Ordering) :
    flagOrd (setFlagOrd r o) = ordCode o ∧ bitField (setFlagOrd r o) 2 0 = bitField r 2 0 ∧
      bitField (setFlagOrd r o) 31 5 = bitField r 31 5 := by
  have h : (setFlagOrd r o).toNat = _ := toNat_setBitField (by decide) (by decide)
  have hr := r.isLt
  simp only [flagOrd, bitField, h]
  cases o <;> simp [ordCode] <;> omega

/-- `FSTAT` after a fault in a block that was not faulted (R18, R153). -/
theorem setFault_zero (c : Cause) : setFault 0 c = BitVec.ofNat 32 (16 * c.code + 1) := by
  cases c <;> decide

end Sys2Proof.Machine
end

