-- ==== Sys2Proof/Laws/State.lean ====
section
/-!
SUPPORT. The state updates, one lemma per field (each true by definition), and reading a register after a write.
-/

namespace Sys2Proof.Machine

@[simp] theorem writeV_params (s : State) (r : VReg) (x : Wide s.params.bits s.params.words) :
    (s.writeV r x).params = s.params := rfl

@[simp] theorem writeV_v (s : State) (r : VReg) (x : Wide s.params.bits s.params.words) :
    (s.writeV r x).v = s.v.set r x := rfl

@[simp] theorem writeV_s (s : State) (r : VReg) (x : Wide s.params.bits s.params.words) :
    (s.writeV r x).s = s.s := rfl

@[simp] theorem writeV_flags (s : State) (r : VReg) (x : Wide s.params.bits s.params.words) :
    (s.writeV r x).flags = s.flags := rfl

@[simp] theorem writeV_fstat (s : State) (r : VReg) (x : Wide s.params.bits s.params.words) :
    (s.writeV r x).fstat = s.fstat := rfl

@[simp] theorem writeV_fcmd (s : State) (r : VReg) (x : Wide s.params.bits s.params.words) :
    (s.writeV r x).fcmd = s.fcmd := rfl

@[simp] theorem writeV_ccnt (s : State) (r : VReg) (x : Wide s.params.bits s.params.words) :
    (s.writeV r x).ccnt = s.ccnt := rfl

@[simp] theorem writeV_port (s : State) (r : VReg) (x : Wide s.params.bits s.params.words) :
    (s.writeV r x).port = s.port := rfl

@[simp] theorem writeV_answer (s : State) (r : VReg) (x : Wide s.params.bits s.params.words) :
    (s.writeV r x).answer = s.answer := rfl

@[simp] theorem writeV_resets (s : State) (r : VReg) (x : Wide s.params.bits s.params.words) :
    (s.writeV r x).resets = s.resets := rfl

@[simp] theorem writeS_params (s : State) (r : SReg) (x : Word s.params.bits) :
    (s.writeS r x).params = s.params := rfl

@[simp] theorem writeS_v (s : State) (r : SReg) (x : Word s.params.bits) :
    (s.writeS r x).v = s.v := rfl

@[simp] theorem writeS_s (s : State) (r : SReg) (x : Word s.params.bits) :
    (s.writeS r x).s = s.s.set r x := rfl

@[simp] theorem writeS_flags (s : State) (r : SReg) (x : Word s.params.bits) :
    (s.writeS r x).flags = s.flags := rfl

@[simp] theorem writeS_fstat (s : State) (r : SReg) (x : Word s.params.bits) :
    (s.writeS r x).fstat = s.fstat := rfl

@[simp] theorem writeS_fcmd (s : State) (r : SReg) (x : Word s.params.bits) :
    (s.writeS r x).fcmd = s.fcmd := rfl

@[simp] theorem writeS_ccnt (s : State) (r : SReg) (x : Word s.params.bits) :
    (s.writeS r x).ccnt = s.ccnt := rfl

@[simp] theorem writeS_port (s : State) (r : SReg) (x : Word s.params.bits) :
    (s.writeS r x).port = s.port := rfl

@[simp] theorem writeS_answer (s : State) (r : SReg) (x : Word s.params.bits) :
    (s.writeS r x).answer = s.answer := rfl

@[simp] theorem writeS_resets (s : State) (r : SReg) (x : Word s.params.bits) :
    (s.writeS r x).resets = s.resets := rfl

@[simp] theorem complete_params (s : State) :
    (s.complete).params = s.params := rfl

@[simp] theorem complete_v (s : State) :
    (s.complete).v = s.v := rfl

@[simp] theorem complete_s (s : State) :
    (s.complete).s = s.s := rfl

@[simp] theorem complete_flags (s : State) :
    (s.complete).flags = s.flags := rfl

@[simp] theorem complete_fstat (s : State) :
    (s.complete).fstat = s.fstat := rfl

@[simp] theorem complete_fcmd (s : State) :
    (s.complete).fcmd = s.fcmd := rfl

@[simp] theorem complete_ccnt (s : State) :
    (s.complete).ccnt = s.ccnt + 1 := rfl

@[simp] theorem complete_port (s : State) :
    (s.complete).port = s.port := rfl

@[simp] theorem complete_answer (s : State) :
    (s.complete).answer = s.answer := rfl

@[simp] theorem complete_resets (s : State) :
    (s.complete).resets = s.resets := rfl

@[simp] theorem takeOp_params (s : State) (rest : List (PortOp s.params.bits)) :
    (takeOp s rest).params = s.params := rfl

@[simp] theorem takeOp_v (s : State) (rest : List (PortOp s.params.bits)) :
    (takeOp s rest).v = s.v := rfl

@[simp] theorem takeOp_s (s : State) (rest : List (PortOp s.params.bits)) :
    (takeOp s rest).s = s.s := rfl

@[simp] theorem takeOp_flags (s : State) (rest : List (PortOp s.params.bits)) :
    (takeOp s rest).flags = s.flags := rfl

@[simp] theorem takeOp_fstat (s : State) (rest : List (PortOp s.params.bits)) :
    (takeOp s rest).fstat = s.fstat := rfl

@[simp] theorem takeOp_fcmd (s : State) (rest : List (PortOp s.params.bits)) :
    (takeOp s rest).fcmd = s.fcmd := rfl

@[simp] theorem takeOp_ccnt (s : State) (rest : List (PortOp s.params.bits)) :
    (takeOp s rest).ccnt = s.ccnt := rfl

@[simp] theorem takeOp_port (s : State) (rest : List (PortOp s.params.bits)) :
    (takeOp s rest).port = rest := rfl

@[simp] theorem takeOp_answer (s : State) (rest : List (PortOp s.params.bits)) :
    (takeOp s rest).answer = .none := rfl

@[simp] theorem takeOp_resets (s : State) (rest : List (PortOp s.params.bits)) :
    (takeOp s rest).resets = s.resets := rfl

@[simp] theorem resetBlock_params (s : State) :
    (resetBlock s).params = s.params := rfl

@[simp] theorem resetBlock_flags (s : State) :
    (resetBlock s).flags = 0 := rfl

@[simp] theorem resetBlock_fstat (s : State) :
    (resetBlock s).fstat = 0 := rfl

@[simp] theorem resetBlock_fcmd (s : State) :
    (resetBlock s).fcmd = 0 := rfl

@[simp] theorem resetBlock_ccnt (s : State) :
    (resetBlock s).ccnt = 0 := rfl

@[simp] theorem resetBlock_port (s : State) :
    (resetBlock s).port = s.port := rfl

@[simp] theorem resetBlock_answer (s : State) :
    (resetBlock s).answer = s.answer := rfl

@[simp] theorem resetBlock_resets (s : State) :
    (resetBlock s).resets = s.resets + 1 := rfl

@[simp] theorem writeV_faulted (s : State) (r : VReg) (x : Wide s.params.bits s.params.words) :
    (s.writeV r x).faulted = s.faulted := rfl

@[simp] theorem writeS_faulted (s : State) (r : SReg) (x : Word s.params.bits) :
    (s.writeS r x).faulted = s.faulted := rfl

@[simp] theorem complete_faulted (s : State) :
    (s.complete).faulted = s.faulted := rfl

@[simp] theorem takeOp_faulted (s : State) (rest : List (PortOp s.params.bits)) :
    (takeOp s rest).faulted = s.faulted := rfl

@[simp] theorem resetBlock_faulted (s : State) :
    (resetBlock s).faulted = false := by
  simp [State.faulted, statusF, bitField]

@[simp] theorem readV_writeV_same (s : State) (r : VReg) (x : Wide s.params.bits s.params.words) :
    (s.writeV r x).readV r = x := by
  simp [State.readV, State.writeV]

theorem readV_writeV_ne (s : State) {r q : VReg} (h : q ≠ r) (x : Wide s.params.bits s.params.words) :
    (s.writeV r x).readV q = s.readV q := by
  have hv : r.val ≠ q.val := fun hv => h (Fin.ext hv.symm)
  simp [State.readV, State.writeV, Vector.getElem_set_ne, hv]

@[simp] theorem readS_writeV (s : State) (r : VReg) (q : SReg) (x : Wide s.params.bits s.params.words) :
    (s.writeV r x).readS q = s.readS q := rfl

@[simp] theorem readS_writeS_same (s : State) (r : SReg) (x : Word s.params.bits) :
    (s.writeS r x).readS r = x := by
  simp [State.readS, State.writeS]

theorem readS_writeS_ne (s : State) {r q : SReg} (h : q ≠ r) (x : Word s.params.bits) :
    (s.writeS r x).readS q = s.readS q := by
  have hv : r.val ≠ q.val := fun hv => h (Fin.ext hv.symm)
  simp [State.readS, State.writeS, Vector.getElem_set_ne, hv]

@[simp] theorem readV_writeS (s : State) (r : SReg) (q : VReg) (x : Word s.params.bits) :
    (s.writeS r x).readV q = s.readV q := rfl

@[simp] theorem readV_complete (s : State) (r : VReg) : s.complete.readV r = s.readV r := rfl

@[simp] theorem readS_complete (s : State) (r : SReg) : s.complete.readS r = s.readS r := rfl

@[simp] theorem readV_takeOp (s : State) (rest : List (PortOp s.params.bits)) (r : VReg) :
    (takeOp s rest).readV r = s.readV r := rfl

@[simp] theorem readS_takeOp (s : State) (rest : List (PortOp s.params.bits)) (r : SReg) :
    (takeOp s rest).readS r = s.readS r := rfl

/-- The word width of a block is at least 8 (R7). -/
theorem params_bits_pos (p : Params) : 0 < p.bits := lt_of_lt_of_le (by decide) p.width.bits_ge

end Sys2Proof.Machine
end

