-- ==== Sys2Proof/Laws/Command.lean ====
section
/-!
SUPPORT. What a command and a step can do, said once: the frame of a command (R14, R37, R153, R155), and the host
port operations.
-/

namespace Sys2Proof.Machine

/-- A command always ends in a next state, one of three: refused while faulted, the fault entry, or its effect with
the count of completed commands (R37). -/
theorem runCommand_cases (i : Instr) (s : State) (check : Option Cause) (effect : State) :
    (s.faulted = true ∧ runCommand i s check effect = .next s) ∨
    (∃ c, s.faulted = false ∧ check = some c ∧ runCommand i s check effect = .next (raiseFault c (encode i) s)) ∨
    (s.faulted = false ∧ check = none ∧ runCommand i s check effect = .next effect.complete) := by
  cases hf : s.faulted <;> cases check <;> simp [runCommand, hf]

theorem runCommand_faulted {i : Instr} {s : State} {check : Option Cause} {effect : State} (h : s.faulted = true) :
    runCommand i s check effect = .next s := by
  simp [runCommand, h]

theorem runCommand_completes {i : Instr} {s : State} {effect : State} (h : s.faulted = false) :
    runCommand i s none effect = .next effect.complete := by
  simp [runCommand, h]

theorem runCommand_faults {i : Instr} {s : State} {c : Cause} {effect : State} (h : s.faulted = false) :
    runCommand i s (some c) effect = .next (raiseFault c (encode i) s) := by
  simp [runCommand, h]

/-- Fault entry in a block that is not faulted (R153). -/
theorem raiseFault_of_not_faulted {c : Cause} {word : BitVec 32} {s : State} (h : s.faulted = false) :
    raiseFault c word s = { s with fstat := setFault s.fstat c, fcmd := word } := by
  simp [raiseFault, h]

/-- No second fault is recorded (R155). -/
theorem raiseFault_of_faulted {c : Cause} {word : BitVec 32} {s : State} (h : s.faulted = true) :
    raiseFault c word s = s := by
  simp [raiseFault, h]

/-- After fault entry the block is faulted (R153). -/
theorem faulted_raiseFault (c : Cause) (word : BitVec 32) (s : State) : (raiseFault c word s).faulted = true := by
  by_cases h : s.faulted = true
  · rw [raiseFault_of_faulted h, h]
  · rw [raiseFault_of_not_faulted (by simpa using h)]
    have h1 : (setBitField s.fstat 0 0 1).toNat = _ := toNat_setBitField (by decide) (by decide)
    have h2 : (setFault s.fstat c).toNat = _ := toNat_setBitField (by decide) (by decide)
    have hr := s.fstat.isLt
    simp only [State.faulted, statusF, bitField, h2, h1, beq_iff_eq]
    cases c <;> simp [Cause.code] <;> omega

theorem shiftCheck_none {bits k : Nat} (h : k < bits) : shiftCheck bits k = none := by simp [shiftCheck, h]

theorem shiftCheck_some {bits k : Nat} (h : bits ≤ k) : shiftCheck bits k = some .shiftRange := by
  simp [shiftCheck, Nat.not_lt.mpr h]

theorem oddCheck_none {bits : Nat} {n0 : Word bits} (h : n0.toNat % 2 = 1) : oddCheck n0 = none := by
  simp [oddCheck, h]

theorem oddCheck_some {bits : Nat} {n0 : Word bits} (h : n0.toNat % 2 = 0) : oddCheck n0 = some .evenModulus := by
  simp [oddCheck, h]

theorem mcCheck_none {bits : Nat} {mc n0 : Word bits} (h : (mc * n0).toNat = 2 ^ bits - 1) :
    mcCheck mc n0 = none := by
  rw [mcCheck, if_pos h]

theorem mcCheck_some {bits : Nat} {mc n0 : Word bits} (h : (mc * n0).toNat ≠ 2 ^ bits - 1) :
    mcCheck mc n0 = some .badMc := by
  rw [mcCheck, if_neg h]

/-- Every command is `runCommand` of itself with some check and some effect. -/
theorem exec_eq_runCommand (i : Instr) (s : State) :
    ∃ check effect, exec i s = runCommand i s check effect := by
  cases i <;>
    simp only [exec, execCzero, execCone, execCtwo, execCthree, execFromw, execIsz, execLowb, execEqu, execCmp,
      execAddw, execAdd, execSub, execShl, execShr, execShli, execShri, execEgcd, execMinv, execMmul, execMconv,
      execPowm] <;>
    exact ⟨_, _, rfl⟩

/-- Every command answers a next state (R37, R178). -/
theorem exec_answers_next (i : Instr) (s : State) : ∃ t, exec i s = .next t := by
  obtain ⟨check, effect, h⟩ := exec_eq_runCommand i s
  rw [h]
  rcases runCommand_cases i s check effect with ⟨_, h⟩ | ⟨_, _, _, h⟩ | ⟨_, _, h⟩ <;> exact ⟨_, h⟩

/-- What a command may do, said once: its check names only causes of its own (R152), and its effect writes at most
its destination registers (R52) and, for the four commands that write a flag, `FLAGS` (R16, R17). -/
theorem exec_inversion (i : Instr) (s : State) : ∃ check v' s' flags',
    exec i s = runCommand i s check { s with v := v', s := s', flags := flags' } ∧
    (∀ r : VReg, i.vDestination ≠ some r → v'[r.val] = s.readV r) ∧
    (∀ r : SReg, r ∉ i.sDestinations → s'[r.val] = s.readS r) ∧
    (i.opcode ∉ [.isz, .lowb, .equ, .cmp] → flags' = s.flags) ∧
    (∀ c, check = some c →
      (c = .illegalCommand ∧ i.wellFormed = false) ∨
      (c = .shiftRange ∧ i.opcode ∈ [.shl, .shr, .shli, .shri]) ∨
      (c = .evenModulus ∧ i.opcode ∈ [.minv, .mmul, .mconv, .powm]) ∨
      (c = .badMc ∧ i.opcode = .mmul)) := by
  have hv : ∀ (rd : VReg) (x : Wide s.params.bits s.params.words) (r : VReg), some rd ≠ some r →
      (s.v.set rd x)[r.val] = s.readV r := by
    intro rd x r h
    rw [Vector.getElem_set_ne _ _ (by simpa [Fin.ext_iff] using h)]
    rfl
  have hs : ∀ (rd : SReg) (x : Word s.params.bits) (r : SReg), r ≠ rd → (s.s.set rd x)[r.val] = s.readS r := by
    intro rd x r h
    rw [Vector.getElem_set_ne _ _ (by simpa [Fin.ext_iff, eq_comm] using h)]
    rfl
  have hshift : ∀ k c, shiftCheck s.params.bits k = some c → c = .shiftRange := by
    intro k c h
    rw [shiftCheck] at h
    split at h <;> simp_all
  have hodd : ∀ (n0 : Word s.params.bits) c, oddCheck n0 = some c → c = .evenModulus := by
    intro n0 c h
    rw [oddCheck] at h
    split at h <;> simp_all
  have hmc : ∀ (n0 mc : Word s.params.bits) c, firstFault (oddCheck n0) (mcCheck mc n0) = some c →
      c = .evenModulus ∨ c = .badMc := by
    intro n0 mc c h
    simp only [firstFault, oddCheck, mcCheck] at h
    split_ifs at h <;> simp_all
  cases i with
  | isz _ | lowb _ | equ _ _ | cmp _ _ =>
    exact ⟨none, s.v, s.s, _, rfl, fun _ _ => rfl, fun _ _ => rfl, by simp [Instr.opcode], by simp⟩
  | egcd rd rc ra rb =>
    refine ⟨_, s.v, _, s.flags, rfl, fun _ _ => rfl, ?_, fun _ => rfl, ?_⟩
    · intro r hr
      simp only [Instr.sDestinations, List.mem_cons, List.not_mem_nil, or_false, not_or] at hr
      rw [Vector.getElem_set_ne _ _ (by simpa [Fin.ext_iff, eq_comm] using hr.2)]
      exact hs _ _ _ hr.1
    · intro c hc
      left
      split at hc <;> simp_all [Instr.wellFormed]
  | minv rd ra =>
    refine ⟨_, s.v, _, s.flags, rfl, fun _ _ => rfl, ?_, fun _ => rfl, ?_⟩
    · intro r hr
      exact hs _ _ _ (by simpa [Instr.sDestinations] using hr)
    · intro c hc
      simp [hodd _ _ hc, Instr.opcode]
  | shl _ _ _ | shr _ _ _ | shli _ _ _ | shri _ _ _ =>
    exact ⟨_, _, s.s, s.flags, rfl, fun _ h => hv _ _ _ h, fun _ _ => rfl, fun _ => rfl,
      fun c hc => by simp [hshift _ _ hc, Instr.opcode]⟩
  | mmul _ _ _ _ _ =>
    exact ⟨_, _, s.s, s.flags, rfl, fun _ h => hv _ _ _ h, fun _ _ => rfl, fun _ => rfl,
      fun c hc => by rcases hmc _ _ _ hc with rfl | rfl <;> simp [Instr.opcode]⟩
  | mconv _ _ | powm _ _ _ _ =>
    exact ⟨_, _, s.s, s.flags, rfl, fun _ h => hv _ _ _ h, fun _ _ => rfl, fun _ => rfl,
      fun c hc => by simp [hodd _ _ hc, Instr.opcode]⟩
  | czero _ | cone _ | ctwo _ | cthree _ | fromw _ _ | addw _ _ _ | add _ _ _ | sub _ _ _ =>
    exact ⟨none, _, s.s, s.flags, rfl, fun _ h => hv _ _ _ h, fun _ _ => rfl, fun _ => rfl, by simp⟩

/-- The next state of a command, said once: refused while faulted, the fault entry with a cause of its own (R152,
R153), or its effect on its destinations and the count (R21, R52). -/
theorem exec_next {i : Instr} {s t : State} (h : exec i s = .next t) :
    (s.faulted = true ∧ t = s) ∨
    (s.faulted = false ∧ ∃ c, t = raiseFault c (encode i) s ∧
      ((c = .illegalCommand ∧ i.wellFormed = false) ∨
      (c = .shiftRange ∧ i.opcode ∈ [.shl, .shr, .shli, .shri]) ∨
      (c = .evenModulus ∧ i.opcode ∈ [.minv, .mmul, .mconv, .powm]) ∨
      (c = .badMc ∧ i.opcode = .mmul))) ∨
    (s.faulted = false ∧ ∃ v' s' flags', t = { s with v := v', s := s', flags := flags', ccnt := s.ccnt + 1 } ∧
      (∀ r : VReg, i.vDestination ≠ some r → v'[r.val] = s.readV r) ∧
      (∀ r : SReg, r ∉ i.sDestinations → s'[r.val] = s.readS r) ∧
      (i.opcode ∉ [.isz, .lowb, .equ, .cmp] → flags' = s.flags)) := by
  obtain ⟨check, v', s', f', h1, h2, h3, h4, h5⟩ := exec_inversion i s
  rw [h1] at h
  rcases runCommand_cases i s check { s with v := v', s := s', flags := f' } with
    ⟨hf, h'⟩ | ⟨c, hf, hc, h'⟩ | ⟨hf, hc, h'⟩ <;> rw [h'] at h <;> cases h
  · exact .inl ⟨hf, rfl⟩
  · exact .inr (.inl ⟨hf, c, rfl, h5 c hc⟩)
  · exact .inr (.inr ⟨hf, v', s', f', rfl, h2, h3, h4⟩)

/-- A command in a faulted block is refused with no change (R155). -/
theorem exec_of_faulted {i : Instr} {s : State} (h : s.faulted = true) : exec i s = .next s := by
  obtain ⟨check, effect, h'⟩ := exec_eq_runCommand i s
  rw [h', runCommand_faulted h]

/-- A legal block that is not faulted has a clear fault record (R18, R19). -/
theorem csrsLegal_not_faulted {s : State} (h : s.csrsLegal = true) (hf : s.faulted = false) :
    flagsLegal s.flags = true ∧ s.fstat = 0 ∧ s.fcmd = 0 := by
  simpa [State.csrsLegal, faultStateLegal, hf] using h

/-- The fault record of the first fault (R18, R19, R153). -/
theorem raiseFault_of_legal {s : State} (h : s.csrsLegal = true) (hf : s.faulted = false) (c : Cause)
    (word : BitVec 32) :
    raiseFault c word s = { s with fstat := BitVec.ofNat 32 (16 * c.code + 1), fcmd := word } := by
  rw [raiseFault_of_not_faulted hf, (csrsLegal_not_faulted h hf).2.1, setFault_zero]

/-- One step with an operation pending (R31, R38). -/
theorem step_cons {s : State} {op : PortOp s.params.bits} {rest : List (PortOp s.params.bits)}
    (h : s.port = op :: rest) : step s = portStep (takeOp s rest) op := by
  rw [step, h]

end Sys2Proof.Machine
end

