-- ==== Sys2Proof/Laws/Comparator.lean ====
section
/-!
SUPPORT. The comparator and the predicates in numbers (R76, R77, R80, R81).
-/

namespace Sys2Proof.Machine

theorem cmpMostSignificantFirst_spec {bits : Nat} (p q : List (Word bits)) (h : p.length = q.length) :
    cmpMostSignificantFirst p q = compare (wordsValue p.reverse) (wordsValue q.reverse) := by
  induction p generalizing q with
  | nil => cases q with
    | nil => rfl
    | cons _ _ => simp at h
  | cons x xs ih => cases q with
    | nil => simp at h
    | cons y ys =>
      have hlen : xs.length = ys.length := by simpa using h
      have hx := wordsValue_lt xs.reverse
      have hy := wordsValue_lt ys.reverse
      simp only [List.reverse_cons, wordsValue_append, List.length_reverse] at hx hy ⊢
      rw [← hlen] at hy ⊢
      rw [cmpMostSignificantFirst, ih ys hlen]
      simp only [wordsValue, Nat.mul_zero, Nat.add_zero]
      generalize 2 ^ (xs.length * bits) = P at *
      generalize wordsValue xs.reverse = u at *
      generalize wordsValue ys.reverse = v at *
      generalize x.toNat = a
      generalize y.toNat = b
      split
      · have : P * (a + 1) ≤ P * b := Nat.mul_le_mul_left _ ‹_›
        rw [Nat.mul_add] at this
        exact (Nat.compare_eq_lt.mpr (by omega)).symm
      · split
        · have : P * (b + 1) ≤ P * a := Nat.mul_le_mul_left _ ‹_›
          rw [Nat.mul_add] at this
          exact (Nat.compare_eq_gt.mpr (by omega)).symm
        · have hab : a = b := by omega
          subst hab
          rcases Nat.lt_trichotomy u v with h1 | h1 | h1
          · rw [Nat.compare_eq_lt.mpr h1, Nat.compare_eq_lt.mpr (by omega)]
          · rw [h1, Nat.compare_eq_eq.mpr rfl, Nat.compare_eq_eq.mpr rfl]
          · rw [Nat.compare_eq_gt.mpr h1, Nat.compare_eq_gt.mpr (by omega)]

/-- `cmpw(a, b)` is the comparison of the integers (R80). -/
theorem cmpw_spec {bits w : Nat} (a b : Wide bits w) : cmpw a b = compare a.value b.value := by
  have h := cmpMostSignificantFirst_spec a.words.reverse b.words.reverse
    (by simp [a.length_eq, b.length_eq])
  simpa [cmpw, Wide.value] using h

/-- `gew(a, b)`: `a >= b` (R80). -/
theorem gew_spec {bits w : Nat} (a b : Wide bits w) : gew a b = decide (b.value ≤ a.value) := by
  rw [gew, ltw, cmpw_spec]
  rcases Nat.lt_trichotomy a.value b.value with h | h | h
  · rw [Nat.compare_eq_lt.mpr h]; simp; omega
  · rw [Nat.compare_eq_eq.mpr h]; simp; omega
  · rw [Nat.compare_eq_gt.mpr h]; simp; omega

theorem equalWords_spec {bits : Nat} (l m : List (Word bits)) (h : l.length = m.length) :
    equalWords l m = true ↔ l = m := by
  induction l generalizing m with
  | nil => cases m with
    | nil => simp [equalWords]
    | cons _ _ => simp at h
  | cons x xs ih => cases m with
    | nil => simp at h
    | cons y ys => simp [equalWords, ih ys (by simpa using h), ← BitVec.toNat_inj]

/-- Equal iff the integers are equal (R81). -/
theorem equw_spec {bits w : Nat} (a b : Wide bits w) : equw a b = decide (a.value = b.value) := by
  have h := equalWords_spec a.words b.words (a.length_eq.trans b.length_eq.symm)
  rw [Bool.eq_iff_iff, equw, h, decide_eq_true_iff]
  constructor
  · intro hab; rw [Wide.value, Wide.value, hab]
  · intro hv; rw [Wide.eq_of_value hv]

theorem wordsValue_eq_zero {bits : Nat} (l : List (Word bits)) :
    (l.all fun x => x.toNat == 0) = true ↔ wordsValue l = 0 := by
  induction l with
  | nil => simp [wordsValue]
  | cons x xs ih =>
    rw [List.all_cons, Bool.and_eq_true, ih]
    simp [wordsValue]

/-- True iff the integer is zero (R76). -/
theorem isZero_spec {bits w : Nat} (a : Wide bits w) : isZero a = decide (a.value = 0) := by
  rw [Bool.eq_iff_iff, isZero, wordsValue_eq_zero, decide_eq_true_iff, Wide.value]

/-- The parity of the integer (R77). -/
theorem lowBit_spec {bits w : Nat} (hb : 0 < bits) (a : Wide bits w) : lowBit a = decide (a.value % 2 = 1) := by
  rw [lowBit, Wide.word_zero_mod_two hb]
  rfl

theorem value_fromWord {bits w : Nat} (hw : 0 < w) (x : Word bits) : (fromWord x : Wide bits w).value = x.toNat := by
  obtain ⟨w, rfl⟩ : ∃ k, w = k + 1 := ⟨w - 1, by omega⟩
  show wordsValue (takeWords (w + 1) [x]) = _
  simp [takeWords, wordsValue, wordsValue_takeWords_nil]

end Sys2Proof.Machine
end

