-- ==== Sys2Proof/Laws/Montgomery.lean ====
section
/-!
SUPPORT. The Montgomery unit in numbers (R116 to R122): the exact identity of the reducer, the bounds of R119, the
product modulo the modulus, and the conversion constant.
-/

namespace Sys2Proof.Machine

/-- `mc * n[0] = -1 (mod B)`, the MontgomeryContext invariant (R115), for a modulus given as a number. -/
def contextMatches {bits : Nat} (mc : Word bits) (n : Nat) : Prop := (mc.toNat * n + 1) % 2 ^ bits = 0

theorem contextMatches_of_word {bits w : Nat} (hb : 0 < bits) {mc : Word bits} {n : Wide bits w}
    (h : (mc * n.word 0).toNat = 2 ^ bits - 1) : contextMatches mc n.value := by
  have h2 : 1 < 2 ^ bits := Nat.one_lt_two_pow (by omega)
  rw [BitVec.toNat_mul, Wide.toNat_word, Nat.mul_zero, Nat.pow_zero, Nat.div_one, Nat.mul_mod_mod] at h
  rw [contextMatches, Nat.add_mod, h, Nat.mod_eq_of_lt h2, Nat.sub_add_cancel (by omega), Nat.mod_self]

/-- The reducer step (R116) is an exact division: `B * redc = acc + m * n`. -/
theorem redcStep_exact {bits : Nat} {mc : Word bits} {n : Nat} (h : contextMatches mc n) (acc : Nat) :
    2 ^ bits * redcStep acc n mc = acc + (BitVec.ofNat bits acc * mc).toNat * n := by
  have hdvd : 2 ^ bits ∣ acc + (BitVec.ofNat bits acc * mc).toNat * n := by
    have hm : (BitVec.ofNat bits acc * mc).toNat ≡ acc * mc.toNat [MOD 2 ^ bits] := by
      rw [BitVec.toNat_mul, BitVec.toNat_ofNat]
      exact (Nat.mod_modEq _ _).trans ((Nat.mod_modEq _ _).mul_right _)
    have h0 : mc.toNat * n + 1 ≡ 0 [MOD 2 ^ bits] := h
    have : acc + (BitVec.ofNat bits acc * mc).toNat * n ≡ 0 [MOD 2 ^ bits] := by
      calc acc + (BitVec.ofNat bits acc * mc).toNat * n ≡ acc + acc * mc.toNat * n [MOD 2 ^ bits] :=
            (hm.mul_right n).add_left acc
        _ = acc * (mc.toNat * n + 1) := by ring
        _ ≡ acc * 0 [MOD 2 ^ bits] := h0.mul_left acc
        _ = 0 := by ring
    exact (Nat.modEq_zero_iff_dvd).mp this
  exact Nat.mul_div_cancel' hdvd

/-- The same for some word `m`. -/
theorem redcStep_spec {bits : Nat} {mc : Word bits} {n : Nat} (h : contextMatches mc n) (acc : Nat) :
    ∃ m, m < 2 ^ bits ∧ 2 ^ bits * redcStep acc n mc = acc + m * n :=
  ⟨_, BitVec.isLt _, redcStep_exact h acc⟩

theorem mmulLoop_spec {bits : Nat} {mc : Word bits} {n : Nat} (h : contextMatches mc n) (a : Nat)
    (bs : List (Word bits)) (acc : Nat) :
    ∃ m, m < 2 ^ (bs.length * bits) ∧
      2 ^ (bs.length * bits) * mmulLoop a n mc bs acc = acc + a * wordsValue bs + m * n := by
  induction bs generalizing acc with
  | nil => exact ⟨0, by simp, by simp [mmulLoop, wordsValue]⟩
  | cons b bs ih =>
    obtain ⟨m, hm, hstep⟩ := redcStep_spec h (acc + a * b.toNat)
    obtain ⟨m', hm', hrest⟩ := ih (redcStep (acc + a * b.toNat) n mc)
    refine ⟨m + 2 ^ bits * m', ?_, ?_⟩
    · rw [pow_cons_length]
      have : 2 ^ bits * (m' + 1) ≤ 2 ^ bits * 2 ^ (bs.length * bits) := Nat.mul_le_mul_left _ hm'
      rw [Nat.mul_add] at this
      omega
    · rw [pow_cons_length, mmulLoop, wordsValue, Nat.mul_assoc, hrest]
      calc 2 ^ bits * (redcStep (acc + a * b.toNat) n mc + a * wordsValue bs + m' * n)
          = 2 ^ bits * redcStep (acc + a * b.toNat) n mc + 2 ^ bits * (a * wordsValue bs + m' * n) := by ring
        _ = _ := by rw [hstep]; ring

/-- The closed form of `T` (R117): `R * T = a*b + M*n` for some `M < R`. -/
theorem mmulT_spec {bits w : Nat} {mc : Word bits} {n : Wide bits w} (h : contextMatches mc n.value)
    (a b : Wide bits w) :
    ∃ m, m < 2 ^ (w * bits) ∧ 2 ^ (w * bits) * mmulT a b n mc = a.value * b.value + m * n.value := by
  obtain ⟨m, hm, heq⟩ := mmulLoop_spec h a.value b.words 0
  rw [b.length_eq] at hm heq
  exact ⟨m, hm, by simpa [mmulT, Wide.value] using heq⟩

/-- `T < a + n` (R119). -/
theorem mmulT_lt {bits w : Nat} {mc : Word bits} {n : Wide bits w} (h : contextMatches mc n.value)
    (hn : 0 < n.value) (a b : Wide bits w) : mmulT a b n mc < a.value + n.value := by
  obtain ⟨m, hm, heq⟩ := mmulT_spec h a b
  have hb := b.value_lt
  have h1 : a.value * b.value ≤ a.value * 2 ^ (w * bits) := Nat.mul_le_mul_left _ hb.le
  have h2 : m * n.value < 2 ^ (w * bits) * n.value := Nat.mul_lt_mul_of_pos_right hm hn
  have h3 : 2 ^ (w * bits) * mmulT a b n mc < 2 ^ (w * bits) * (a.value + n.value) := by
    rw [heq, Nat.mul_add, Nat.mul_comm (2 ^ (w * bits)) a.value]
    omega
  exact Nat.lt_of_mul_lt_mul_left h3

/-- `T < 2n` when one operand is below the modulus (R119). -/
theorem mmulT_lt_two_mul {bits w : Nat} {mc : Word bits} {n : Wide bits w} (h : contextMatches mc n.value)
    (hn : 0 < n.value) (a b : Wide bits w) (hab : a.value < n.value ∨ b.value < n.value) :
    mmulT a b n mc < 2 * n.value := by
  rcases hab with ha | hb
  · have := mmulT_lt h hn a b
    omega
  · obtain ⟨m, hm, heq⟩ := mmulT_spec h a b
    have ha := a.value_lt
    have h1 : a.value * b.value ≤ 2 ^ (w * bits) * n.value := Nat.mul_le_mul ha.le hb.le
    have h2 : m * n.value < 2 ^ (w * bits) * n.value := Nat.mul_lt_mul_of_pos_right hm hn
    have h3 : 2 ^ (w * bits) * mmulT a b n mc < 2 ^ (w * bits) * (2 * n.value) := by
      rw [heq, show 2 ^ (w * bits) * (2 * n.value) = 2 ^ (w * bits) * n.value + 2 ^ (w * bits) * n.value by ring]
      omega
    exact Nat.lt_of_mul_lt_mul_left h3

/-- The result of `mmul` is `T` less at most one `n` (R117); it fits in `W` words (R119). -/
theorem value_mmul {bits w : Nat} {mc : Word bits} {n : Wide bits w} (h : contextMatches mc n.value)
    (hn : 0 < n.value) (a b : Wide bits w) :
    (mmul a b n mc).value = subtractOnce (mmulT a b n mc) n.value := by
  have hT := mmulT_lt h hn a b
  have ha := a.value_lt
  have hnlt := n.value_lt
  rw [mmul, Wide.value_ofNat, Nat.mod_eq_of_lt]
  rw [subtractOnce]
  split <;> omega

theorem subtractOnce_modEq (t n : Nat) : subtractOnce t n ≡ t [MOD n] := by
  rw [subtractOnce]
  split
  · exact (Nat.mod_eq_sub_mod ‹_›).symm
  · rfl

/-- `mmul * R = a*b (mod n)` for all operands (R117, R119). -/
theorem mmul_modEq {bits w : Nat} {mc : Word bits} {n : Wide bits w} (h : contextMatches mc n.value)
    (hn : 0 < n.value) (a b : Wide bits w) :
    (mmul a b n mc).value * 2 ^ (w * bits) ≡ a.value * b.value [MOD n.value] := by
  obtain ⟨m, _, heq⟩ := mmulT_spec h a b
  rw [value_mmul h hn]
  calc subtractOnce (mmulT a b n mc) n.value * 2 ^ (w * bits)
      ≡ mmulT a b n mc * 2 ^ (w * bits) [MOD n.value] := (subtractOnce_modEq _ _).mul_right _
    _ = a.value * b.value + m * n.value := by rw [Nat.mul_comm, heq]
    _ ≡ a.value * b.value [MOD n.value] := by simp [Nat.ModEq]

/-- The result is fully reduced when one operand is below the modulus (R119). -/
theorem mmul_lt {bits w : Nat} {mc : Word bits} {n : Wide bits w} (h : contextMatches mc n.value)
    (hn : 0 < n.value) (a b : Wide bits w) (hab : a.value < n.value ∨ b.value < n.value) :
    (mmul a b n mc).value < n.value := by
  have := mmulT_lt_two_mul h hn a b hab
  rw [value_mmul h hn, subtractOnce]
  split <;> omega

/-- One doubling of `mconv` (R122): the true `2x` less `n` when it reaches `n`. -/
theorem mconvLoop_spec {bits w : Nat} (hb : 0 < bits) (n : Wide bits w) (count : Nat) (x : Wide bits w)
    (hx : x.value < n.value) : (mconvLoop n count x).value = x.value * 2 ^ count % n.value := by
  induction count generalizing x with
  | zero => simp [mconvLoop, Nat.mod_eq_of_lt hx]
  | succ count ih =>
    have hspec := addcWide_spec hb x x false
    have hn := n.value_lt
    have hylt := (addcWide x x false).1.value_lt
    have hval : ∀ y : Wide bits w, y.value = 2 * x.value % n.value → y.value < n.value →
        (mconvLoop n count y).value = x.value * 2 ^ (count + 1) % n.value := by
      intro y hy hlt
      rw [ih y hlt, hy, Nat.mod_mul_mod]
      congr 1
      ring
    rw [show mconvLoop n (count + 1) x = mconvLoop n count
      (if (addcWide x x false).2 || gew (addcWide x x false).1 n then (subbWide (addcWide x x false).1 n false).1
        else (addcWide x x false).1) from rfl]
    by_cases hc : ((addcWide x x false).2 || gew (addcWide x x false).1 n) = true
    · rw [if_pos hc]
      have hsub := value_subbWide hb (addcWide x x false).1 n
      have h2n : n.value ≤ 2 * x.value := by
        cases hcarry : (addcWide x x false).2
        · rw [hcarry, Bool.false_or, gew_spec, decide_eq_true_iff] at hc
          simp [hcarry, bitOf] at hspec
          omega
        · simp [hcarry, bitOf] at hspec
          omega
      have hdiff : (subbWide (addcWide x x false).1 n false).1.value = 2 * x.value - n.value := by
        rw [hsub]
        cases hcarry : (addcWide x x false).2
        · simp [hcarry, bitOf] at hspec
          rw [show (addcWide x x false).1.value + 2 ^ (w * bits) - n.value =
            (2 * x.value - n.value) + 2 ^ (w * bits) by omega, Nat.add_mod_right, Nat.mod_eq_of_lt (by omega)]
        · simp [hcarry, bitOf] at hspec
          rw [show (addcWide x x false).1.value + 2 ^ (w * bits) - n.value = 2 * x.value - n.value by omega,
            Nat.mod_eq_of_lt (by omega)]
      refine hval _ ?_ (by omega)
      rw [hdiff, Nat.mod_eq_sub_mod h2n, Nat.mod_eq_of_lt (by omega)]
    · rw [if_neg hc]
      rw [Bool.or_eq_true, not_or, gew_spec, decide_eq_true_iff] at hc
      obtain ⟨hcarry, hlt⟩ := hc
      simp [hcarry, bitOf] at hspec
      exact hval _ (by rw [Nat.mod_eq_of_lt (by omega)]; omega) (by omega)

/-- The conversion constant (R121): `R^2 mod n`. -/
theorem value_mconv {bits w : Nat} (hb : 0 < bits) (hw : 0 < w) (n : Wide bits w) (hn : 0 < n.value) :
    (mconv n).value = 2 ^ (2 * w * bits) % n.value := by
  have hb2 : 1 < 2 ^ bits := Nat.one_lt_two_pow (by omega)
  have hone : (fromWord 1 : Wide bits w).value = 1 := by
    rw [value_fromWord hw]
    simp [Nat.mod_eq_of_lt hb2]
  have hR : 1 < 2 ^ (w * bits) := Nat.one_lt_two_pow (by simp; omega)
  rw [mconv]
  by_cases h1 : n.value = 1
  · have hg : gew (fromWord 1 : Wide bits w) n = true := by rw [gew_spec, hone, h1]; rfl
    have hz : (subbWide (fromWord 1 : Wide bits w) n false).1.value = 0 := by
      rw [value_subbWide hb, hone, h1]
      simp
    simp only [hg, if_true]
    rw [mconvLoop_spec hb n _ _ (by omega), hz]
    simp [h1, Nat.mod_one]
  · have hg : gew (fromWord 1 : Wide bits w) n = false := by rw [gew_spec, hone, decide_eq_false_iff_not]; omega
    simp only [hg, Bool.false_eq_true, if_false]
    rw [mconvLoop_spec hb n _ _ (by omega), hone, Nat.one_mul]

end Sys2Proof.Machine
end

