-- ==== Sys2Proof/Laws/Datapath.lean ====
section
/-!
SUPPORT. The word-level datapath of R118: one pass over the words, and one outer iteration, as numbers.
-/

namespace Sys2Proof.Machine

/-- `lo` and `hi` of a sum that fits in two words (R118). -/
theorem toNat_lo_add_hi {bits x : Nat} (h : x < 2 ^ bits * 2 ^ bits) :
    (loWord bits x).toNat + 2 ^ bits * (hiWord bits x).toNat = x := by
  have h2 : x / 2 ^ bits < 2 ^ bits := by rwa [Nat.div_lt_iff_lt_mul (Nat.two_pow_pos _)]
  rw [loWord, hiWord, BitVec.toNat_ofNat, BitVec.toNat_ofNat, Nat.mod_eq_of_lt h2]
  exact Nat.mod_add_div x _

/-- `x <= (B-1) + (B-1)^2 + (B-1) = B^2 - 1` (R118). -/
theorem mulAdd_lt {bits : Nat} (x y m c : Word bits) :
    y.toNat + x.toNat * m.toNat + c.toNat < 2 ^ bits * 2 ^ bits := by
  have hx := x.isLt
  have hy := y.isLt
  have hm := m.isLt
  have hc := c.isLt
  obtain ⟨B, hB⟩ : ∃ B, 2 ^ bits = B + 1 := ⟨2 ^ bits - 1, by have := Nat.two_pow_pos bits; omega⟩
  rw [hB] at hx hy hm hc ⊢
  have := Nat.mul_le_mul (Nat.le_of_lt_succ hx) (Nat.le_of_lt_succ hm)
  nlinarith

/-- One pass of R118: the words keep their count, and words and last carry together are `t + a*m + c`. -/
theorem mulAddPass_spec {bits : Nat} (m : Word bits) (a t : List (Word bits)) (c : Word bits) (h : a.length = t.length) :
    (mulAddPass m a t c).1.length = t.length ∧
    wordsValue (mulAddPass m a t c).1 + 2 ^ (t.length * bits) * (mulAddPass m a t c).2.toNat =
      wordsValue t + wordsValue a * m.toNat + c.toNat := by
  induction a generalizing t c with
  | nil => cases t with
    | nil => simp [mulAddPass, wordsValue]
    | cons y ys => simp at h
  | cons x xs ih =>
    cases t with
    | nil => simp at h
    | cons y ys =>
      obtain ⟨h1, h2⟩ := ih ys (hiWord bits (y.toNat + x.toNat * m.toNat + c.toNat)) (by simpa using h)
      have h3 := toNat_lo_add_hi (mulAdd_lt x y m c)
      constructor
      · simpa [mulAddPass] using h1
      · simp only [mulAddPass, wordsValue, List.length_cons]
        rw [Nat.add_mul, Nat.one_mul, Nat.add_comm (ys.length * bits), Nat.pow_add]
        have h4 := congrArg (2 ^ bits * ·) h2
        simp only [Nat.mul_add] at h4
        linarith [h3, h4]

/-- The integer the accumulator of R118 stands for. -/
def redcAccValue {bits : Nat} (w : Nat) (t : RedcAcc bits) : Nat :=
  wordsValue t.low + 2 ^ (w * bits) * (t.top.toNat + 2 ^ bits * t.extra.toNat)

theorem add_words_lt {bits : Nat} (hb : 0 < bits) (x y : Word bits) :
    x.toNat + y.toNat < 2 ^ bits * 2 ^ bits := by
  have hx := x.isLt
  have hy := y.isLt
  have : 2 ≤ 2 ^ bits := Nat.le_self_pow (by omega) 2
  nlinarith

theorem wordsValue_head_mod {bits : Nat} (x : Word bits) (xs : List (Word bits)) (r : Nat) :
    BitVec.ofNat bits (wordsValue (x :: xs) + 2 ^ bits * r) = x := by
  apply BitVec.eq_of_toNat_eq
  rw [wordsValue, BitVec.toNat_ofNat, Nat.add_assoc, ← Nat.mul_add, Nat.add_mul_mod_self_left,
    Nat.mod_eq_of_lt x.isLt]

/-- One outer iteration of R118 is one iteration of R117, for an accumulator whose second extra word is 0 (R119). -/
theorem datapathStep_spec {bits w : Nat} (hb : 0 < bits) {a n : List (Word bits)} {mc : Word bits}
    (ha : a.length = w + 1) (hn : n.length = w + 1) (hmc : contextMatches mc (wordsValue n)) (bi : Word bits)
    {t : RedcAcc bits} (ht : t.low.length = w + 1) (hx : t.extra = 0) :
    (datapathStep a n mc bi t).low.length = w + 1 ∧
      redcAccValue (w + 1) (datapathStep a n mc bi t) =
        redcStep (redcAccValue (w + 1) t + wordsValue a * bi.toNat) (wordsValue n) mc := by
  obtain ⟨low, top, extra⟩ := t
  simp only at ht hx
  subst hx
  obtain ⟨hl1, hv1⟩ := mulAddPass_spec bi a low 0 (ha.trans ht.symm)
  simp only [datapathStep]
  generalize mulAddPass bi a low 0 = p1 at hl1 hv1 ⊢
  obtain ⟨low1, c1⟩ := p1
  simp only at hl1 hv1 ⊢
  rw [ht] at hl1 hv1
  have hx1 := toNat_lo_add_hi (add_words_lt hb top c1)
  generalize loWord bits (top.toNat + c1.toNat) = top1 at hx1 ⊢
  have he : (0 : Word bits) + hiWord bits (top.toNat + c1.toNat) = hiWord bits (top.toNat + c1.toNat) := by simp
  rw [he]
  generalize hiWord bits (top.toNat + c1.toNat) = extra1 at hx1 ⊢
  obtain ⟨x0, xs, rfl⟩ : ∃ x xs, low1 = x :: xs := by
    cases low1 with
    | nil => simp at hl1
    | cons x xs => exact ⟨x, xs, rfl⟩
  obtain ⟨hl2, hv2⟩ := mulAddPass_spec (x0 * mc) n (x0 :: xs) 0 (hn.trans hl1.symm)
  simp only [List.headD_cons]
  generalize mulAddPass (x0 * mc) n (x0 :: xs) 0 = p2 at hl2 hv2 ⊢
  obtain ⟨folded, c2⟩ := p2
  simp only at hl2 hv2 ⊢
  rw [hl1] at hl2 hv2
  have hy := toNat_lo_add_hi (add_words_lt hb top1 c2)
  generalize loWord bits (top1.toNat + c2.toNat) = y0 at hy ⊢
  generalize hiWord bits (top1.toNat + c2.toNat) = y1 at hy ⊢
  have hz := toNat_lo_add_hi (add_words_lt hb extra1 y1)
  generalize loWord bits (extra1.toNat + y1.toNat) = z0 at hz ⊢
  generalize hiWord bits (extra1.toNat + y1.toNat) = z1 at hz ⊢
  obtain ⟨f0, fs, rfl⟩ : ∃ x xs, folded = x :: xs := by
    cases folded with
    | nil => simp at hl2
    | cons x xs => exact ⟨x, xs, rfl⟩
  have hfs : fs.length = w := by simpa using hl2
  have hpow : 2 ^ ((w + 1) * bits) = 2 ^ bits * 2 ^ (w * bits) := by
    rw [Nat.add_mul, Nat.one_mul, Nat.add_comm, Nat.pow_add]
  refine ⟨by simp [hfs], ?_⟩
  -- the accumulator after the multiply-accumulate
  have hS : redcAccValue (w + 1) ⟨low, top, 0⟩ + wordsValue a * bi.toNat =
      wordsValue (x0 :: xs) + 2 ^ bits * (2 ^ (w * bits) * (top1.toNat + 2 ^ bits * extra1.toNat)) := by
    simp only [redcAccValue, hpow] at hv1 ⊢
    have h := congrArg (2 ^ bits * 2 ^ (w * bits) * ·) hx1
    simp only [Nat.mul_add] at h
    simp at hv1 ⊢
    linarith
  rw [hS]
  have hm := wordsValue_head_mod x0 xs (2 ^ (w * bits) * (top1.toNat + 2 ^ bits * extra1.toNat))
  have h1 := redcStep_exact hmc
    (wordsValue (x0 :: xs) + 2 ^ bits * (2 ^ (w * bits) * (top1.toNat + 2 ^ bits * extra1.toNat)))
  rw [hm] at h1
  have h2 : 2 ^ bits * redcAccValue (w + 1) ⟨(f0 :: fs).tail ++ [y0], z0, z1⟩ + f0.toNat =
      wordsValue (x0 :: xs) + 2 ^ bits * (2 ^ (w * bits) * (top1.toNat + 2 ^ bits * extra1.toNat)) +
        (x0 * mc).toNat * wordsValue n := by
    simp only [redcAccValue, List.tail_cons, wordsValue_append, hfs, wordsValue, hpow] at hv2 ⊢
    have g1 := congrArg (2 ^ bits * 2 ^ (w * bits) * ·) hy
    have g2 := congrArg (2 ^ bits * (2 ^ bits * 2 ^ (w * bits)) * ·) hz
    simp only [Nat.mul_add] at g1 g2
    simp at hv2 ⊢
    linarith
  have hf := f0.isLt
  rw [← h1] at h2
  have h3 : f0.toNat = 0 := by
    have := congrArg (· % 2 ^ bits) h2
    simp only [Nat.mul_add_mod, Nat.mul_mod_right] at this
    rwa [Nat.mod_eq_of_lt hf] at this
  rw [h3, Nat.add_zero] at h2
  exact Nat.eq_of_mul_eq_mul_left (Nat.two_pow_pos _) h2

end Sys2Proof.Machine
end

