-- ==== Sys2Proof/Laws/Decode.lean ====
section
/-!
SUPPORT. The layout of a command word (R51) field by field, and the opcode of a byte (R54).
-/

namespace Sys2Proof

theorem Opcode.byte_lt (o : Opcode) : o.byte < 256 := by cases o <;> decide

/-- The number of a packed command word, for a low byte in range. -/
theorem toNat_packCommand (o : Opcode) (rd ra rb rc : Fin 8) {lo8 : Nat} (h : lo8 < 256) :
    (packCommand o rd ra rb rc lo8).toNat =
      o.byte * 2 ^ 24 + rd.val * 2 ^ 20 + ra.val * 2 ^ 16 + rb.val * 2 ^ 12 + rc.val * 2 ^ 8 + lo8 := by
  have := o.byte_lt
  rw [packCommand, BitVec.toNat_ofNat, Nat.mod_eq_of_lt (by omega)]

/-- Every field of a packed command word is what was packed, and bits 23, 19, 15, 11 are 0 (R51). -/
theorem bitField_packCommand (o : Opcode) (rd ra rb rc : Fin 8) {lo8 : Nat} (h : lo8 < 256) :
    bitField (packCommand o rd ra rb rc lo8) 31 24 = o.byte ∧
    bitField (packCommand o rd ra rb rc lo8) 22 20 = rd.val ∧
    bitField (packCommand o rd ra rb rc lo8) 18 16 = ra.val ∧
    bitField (packCommand o rd ra rb rc lo8) 14 12 = rb.val ∧
    bitField (packCommand o rd ra rb rc lo8) 10 8 = rc.val ∧
    bitField (packCommand o rd ra rb rc lo8) 7 0 = lo8 ∧
    mustBeZeroBitsClear (packCommand o rd ra rb rc lo8) = true := by
  have hb := o.byte_lt
  simp only [mustBeZeroBitsClear, bitField, toNat_packCommand o rd ra rb rc h, Bool.and_eq_true, beq_iff_eq]
  refine ⟨?_, ?_, ?_, ?_, ?_, ?_, ?_⟩ <;> omega

theorem Opcode.ofByte_byte (o : Opcode) : Opcode.ofByte o.byte = some o := by cases o <;> decide

/-- The opcode read from a byte has that byte (R54). -/
theorem Opcode.byte_of_ofByte {n : Nat} {o : Opcode} (h : Opcode.ofByte n = some o) : o.byte = n := by
  simpa using List.find?_some h

/-- What the decoder has checked when it answers a command (R55). -/
theorem decode_ok {c : BitVec 32} {i : Instr} (h : decode c = .ok i) :
    ∃ o, o.byte = bitField c 31 24 ∧ mustBeZeroBitsClear c = true ∧ unusedFieldsClear o c = true ∧
      lowByteAllowed o c = true ∧ ¬ (o = .egcd ∧ bitField c 22 20 = bitField c 10 8) ∧ i = assemble o c := by
  rw [decode] at h
  split at h
  · cases h
  · rename_i o ho
    split at h
    · cases h
    split at h
    · cases h
    split at h
    · cases h
    split at h
    · cases h
    rename_i h1 h2 h3 h4
    refine ⟨o, Opcode.byte_of_ofByte ho, ?_, ?_, ?_, h4, ?_⟩
    · simpa using h1
    · simpa using h2
    · simpa using h3
    · cases h; rfl

/-- When the decoder answers a command: the checks of R55 in one statement. -/
theorem decode_of_checks {c : BitVec 32} {o : Opcode} (ho : bitField c 31 24 = o.byte)
    (h1 : mustBeZeroBitsClear c = true) (h2 : unusedFieldsClear o c = true) (h3 : lowByteAllowed o c = true)
    (h4 : ¬ (o = .egcd ∧ bitField c 22 20 = bitField c 10 8)) : decode c = .ok (assemble o c) := by
  rw [decode, ho, Opcode.ofByte_byte]
  simp only [h1, h2, h3, Bool.true_eq_false, if_false, if_neg h4]

end Sys2Proof
end

