-- ==== Sys2Proof/Laws/ModInverse.lean ====
section
/-!
SUPPORT. The Euclid unit: the recursion of R106 unfolded once, the Bezout identity modulo `B`, and the inverse of an
odd word (R109).
-/

namespace Sys2Proof.Machine

theorem toNat_umod_lt {bits : Nat} {a b : Word bits} (ha : a.toNat ≠ 0) : (b % a).toNat < a.toNat := by
  rw [BitVec.toNat_umod]
  exact Nat.mod_lt _ (by omega)

/-- Every depth that reaches the base case gives the same pair (R108). -/
theorem egcdBounded_fuel {bits : Nat} (f g : Nat) (a b : Word bits) (hf : a.toNat ≤ f) (hg : a.toNat ≤ g) :
    egcdBounded f a b = egcdBounded g a b := by
  induction f generalizing g a b with
  | zero =>
    have h0 : a.toNat = 0 := by omega
    cases g <;> simp [egcdBounded, h0]
  | succ f ih =>
    by_cases ha : a.toNat = 0
    · cases g <;> simp [egcdBounded, ha]
    · obtain ⟨g, rfl⟩ : ∃ k, g = k + 1 := ⟨g - 1, by omega⟩
      have hlt := toNat_umod_lt (b := b) ha
      rw [egcdBounded, egcdBounded, if_neg ha, if_neg ha, ih g (b % a) a (by omega) (by omega)]

/-- The base case of R106. -/
theorem egcd_zero {bits : Nat} (b : Word bits) : egcd 0 b = (0, 1) := by
  simp [egcd, egcdBounded]

/-- The recursion of R106. -/
theorem egcd_rec {bits : Nat} {a : Word bits} (ha : a.toNat ≠ 0) (b : Word bits) :
    egcd a b = ((egcd (b % a) a).2 - b / a * (egcd (b % a) a).1, (egcd (b % a) a).1) := by
  have hlt := toNat_umod_lt (b := b) ha
  obtain ⟨k, hk⟩ : ∃ k, a.toNat = k + 1 := ⟨a.toNat - 1, by omega⟩
  have : egcd a b = egcdBounded (k + 1) a b := by rw [egcd, hk]
  rw [this, egcdBounded, if_neg ha, egcd, egcdBounded_fuel k (b % a).toNat _ _ (by omega) (le_refl _)]

/-- Division with remainder on words (R105). -/
theorem word_mod_add_div {bits : Nat} (a b : Word bits) : b % a + b / a * a = b := by
  apply BitVec.eq_of_toNat_eq
  have hb := b.isLt
  rw [BitVec.toNat_add, BitVec.toNat_mul, BitVec.toNat_umod, BitVec.toNat_udiv, Nat.add_mod_mod, Nat.mul_comm,
    Nat.mod_add_div, Nat.mod_eq_of_lt hb]

theorem word_ring (bits : Nat) (a q r x y : Word bits) : a * (y - q * x) + (r + q * a) * x = r * x + a * y := by
  ring

/-- The meaning of the pair (R106): `a*x + b*y = gcd(a, b)` modulo `B`. -/
theorem egcd_bezout {bits : Nat} (a b : Word bits) :
    a * (egcd a b).1 + b * (egcd a b).2 = BitVec.ofNat bits (Nat.gcd a.toNat b.toNat) := by
  suffices h : ∀ n : Nat, ∀ a b : Word bits, a.toNat ≤ n →
      a * (egcd a b).1 + b * (egcd a b).2 = BitVec.ofNat bits (Nat.gcd a.toNat b.toNat) from h _ a b (le_refl _)
  intro n
  induction n with
  | zero =>
    intro a b h
    have h0 : a = 0 := BitVec.eq_of_toNat_eq (by simpa using h)
    subst h0
    rw [egcd_zero]
    simp
  | succ n ih =>
    intro a b h
    by_cases ha : a.toNat = 0
    · exact ih a b (by omega)
    · have hlt := toNat_umod_lt (b := b) ha
      have hrec := ih (b % a) a (by omega)
      have hgcd : Nat.gcd (b % a).toNat a.toNat = Nat.gcd a.toNat b.toNat := by
        rw [BitVec.toNat_umod, ← Nat.gcd_rec]
      rw [hgcd] at hrec
      rw [egcd_rec ha, ← hrec]
      have := word_ring bits a (b / a) (b % a) (egcd (b % a) a).1 (egcd (b % a) a).2
      rwa [word_mod_add_div] at this

/-- `minv(n) * n = -1` modulo `B` for an odd word `n` (R109). -/
theorem minv_mul {bits : Nat} (n : Word bits) (hn : n.toNat % 2 = 1) : minv n * n = -1 := by
  have hlt := n.isLt
  have hneg : (-n).toNat = 2 ^ bits - n.toNat := by
    rw [BitVec.toNat_neg, Nat.mod_eq_of_lt (by omega)]
  have hcop : Nat.gcd (-n % n).toNat n.toNat = 1 := by
    rw [BitVec.toNat_umod, hneg, ← Nat.gcd_rec, Nat.gcd_comm]
    have h2 : Nat.gcd n.toNat (2 ^ bits) = 1 :=
      Nat.Coprime.pow_right bits (Nat.coprime_two_right.mpr (Nat.odd_iff.mpr hn))
    have : Nat.gcd (2 ^ bits - n.toNat) n.toNat = Nat.gcd (2 ^ bits) n.toNat := Nat.gcd_sub_self_left (by omega)
    rw [this, Nat.gcd_comm, h2]
  have hbez := egcd_bezout (-n % n) n
  rw [hcop] at hbez
  have hdiv := word_mod_add_div n (-n)
  have hx : minv n = -((egcd (-n % n) n).2 - (-n / n + 1) * (egcd (-n % n) n).1) := by
    rw [BitVec.neg_eq_not_add]
    rfl
  rw [hx]
  generalize (egcd (-n % n) n).1 = x at *
  generalize (egcd (-n % n) n).2 = y at *
  generalize -n % n = r at *
  generalize -n / n = q at *
  have h1 : (1 : Word bits) = r * x + n * y := hbez.symm
  have h0 : r = -n - q * n := by rw [← hdiv]; ring
  rw [h0] at h1
  calc -(y - (q + 1) * x) * n = -((-n - q * n) * x + n * y) := by ring
    _ = -1 := by rw [← h1]

/-- The MontgomeryContext invariant (R109): `wmul(minv(n), n) = B - 1`. -/
theorem toNat_minv_mul {bits : Nat} (hb : 0 < bits) (n : Word bits) (hn : n.toNat % 2 = 1) :
    (minv n * n).toNat = 2 ^ bits - 1 := by
  rw [minv_mul n hn]
  have h2 : 1 < 2 ^ bits := Nat.one_lt_two_pow (by omega)
  rw [BitVec.toNat_neg]
  simp [Nat.mod_eq_of_lt h2]

end Sys2Proof.Machine
end

