-- ==== Sys2Proof/Laws/ModExp.lean ====
section
/-!
SUPPORT. The exponentiation engine in numbers (R130, R131): `(base ^ e) mod n` for an odd modulus.
-/

namespace Sys2Proof.Machine

theorem radix_coprime {n k : Nat} (hn : n % 2 = 1) : Nat.gcd n (2 ^ k) = 1 :=
  Nat.Coprime.pow_right k (Nat.coprime_two_right.mpr (Nat.odd_iff.mpr hn))

/-- A Montgomery product of `x*R` and `y*R` is `x*y*R` (R124). -/
theorem mmul_montgomery {bits w : Nat} {mc : Word bits} {n : Wide bits w} (h : contextMatches mc n.value)
    (hodd : n.value % 2 = 1) {a b : Wide bits w} {x y : Nat}
    (ha : a.value ≡ x * 2 ^ (w * bits) [MOD n.value]) (hb : b.value ≡ y * 2 ^ (w * bits) [MOD n.value]) :
    (mmul a b n mc).value ≡ x * y * 2 ^ (w * bits) [MOD n.value] := by
  have hm := mmul_modEq h (by omega) a b
  refine Nat.ModEq.cancel_right_of_coprime (c := 2 ^ (w * bits)) (radix_coprime hodd) ?_
  calc (mmul a b n mc).value * 2 ^ (w * bits) ≡ a.value * b.value [MOD n.value] := hm
    _ ≡ x * 2 ^ (w * bits) * (y * 2 ^ (w * bits)) [MOD n.value] := ha.mul hb
    _ = x * y * 2 ^ (w * bits) * 2 ^ (w * bits) := by ring

theorem powmLoop_spec {bits w : Nat} {mc : Word bits} {n : Wide bits w} (h : contextMatches mc n.value)
    (hodd : n.value % 2 = 1) {bm : Wide bits w} {base : Nat}
    (hbm : bm.value ≡ base * 2 ^ (w * bits) [MOD n.value]) (e : Nat) (k : Nat) (acc : Wide bits w)
    (hlt : acc.value < n.value) (hacc : acc.value ≡ base ^ (e / 2 ^ k) * 2 ^ (w * bits) [MOD n.value]) :
    (powmLoop n bm mc e k acc).value < n.value ∧
      (powmLoop n bm mc e k acc).value ≡ base ^ e * 2 ^ (w * bits) [MOD n.value] := by
  induction k generalizing acc with
  | zero =>
    rw [Nat.pow_zero, Nat.div_one] at hacc
    exact ⟨hlt, hacc⟩
  | succ k ih =>
    have hsq := mmul_montgomery h hodd hacc hacc
    have hsqlt := mmul_lt h (by omega) acc acc (Or.inl hlt)
    have hdiv : e / 2 ^ k = 2 * (e / 2 ^ (k + 1)) + e / 2 ^ k % 2 := by
      rw [Nat.pow_succ, ← Nat.div_div_eq_div_mul]
      omega
    rw [powmLoop]
    by_cases hbit : exponentBit e k = true
    · have hone : e / 2 ^ k % 2 = 1 := by simpa [exponentBit] using hbit
      rw [if_pos hbit]
      refine ih _ (mmul_lt h (by omega) _ _ (Or.inl hsqlt)) ?_
      have := mmul_montgomery h hodd hsq hbm
      rw [hdiv, hone, Nat.pow_add, Nat.two_mul, Nat.pow_add, Nat.pow_one]
      exact this
    · have hzero : e / 2 ^ k % 2 = 0 := by
        have : ¬ e / 2 ^ k % 2 = 1 := by simpa [exponentBit] using hbit
        omega
      rw [if_neg hbit]
      refine ih _ hsqlt ?_
      rw [hdiv, hzero, Nat.add_zero, Nat.two_mul, Nat.pow_add]
      exact hsq

/-- `powm(base, e, n) = (base ^ e) mod n` for an odd modulus (R130). -/
theorem value_powm {bits w : Nat} (hb : 0 < bits) (hw : 0 < w) (base e n : Wide bits w) (hodd : n.value % 2 = 1) :
    (powm base e n).value = base.value ^ e.value % n.value := by
  have hn : 0 < n.value := by omega
  have hword : (n.word 0).toNat % 2 = 1 := by rw [Wide.word_zero_mod_two hb, hodd]
  have h : contextMatches (minv (n.word 0)) n.value := contextMatches_of_word hb (toNat_minv_mul hb _ hword)
  have hb2 : 1 < 2 ^ bits := Nat.one_lt_two_pow (by omega)
  have hone : (fromWord 1 : Wide bits w).value = 1 := by
    rw [value_fromWord hw]
    simp [Nat.mod_eq_of_lt hb2]
  have hrr := value_mconv hb hw n hn
  have hrrlt : (mconv n).value < n.value := by rw [hrr]; exact Nat.mod_lt _ hn
  have hpow : 2 ^ (2 * w * bits) = 2 ^ (w * bits) * 2 ^ (w * bits) := by rw [← Nat.pow_add]; congr 1; ring
  have hcancel : ∀ {x y : Nat}, x * 2 ^ (w * bits) ≡ y * 2 ^ (w * bits) [MOD n.value] → x ≡ y [MOD n.value] :=
    fun hxy => Nat.ModEq.cancel_right_of_coprime (c := 2 ^ (w * bits)) (radix_coprime hodd) hxy
  have hrrmod : (mconv n).value ≡ 2 ^ (w * bits) * 2 ^ (w * bits) [MOD n.value] := by
    rw [hrr, hpow]
    exact Nat.mod_modEq _ _
  have hbm : (mmul base (mconv n) n (minv (n.word 0))).value ≡ base.value * 2 ^ (w * bits) [MOD n.value] := by
    apply hcancel
    calc _ ≡ base.value * (mconv n).value [MOD n.value] := mmul_modEq h hn _ _
      _ ≡ base.value * (2 ^ (w * bits) * 2 ^ (w * bits)) [MOD n.value] := hrrmod.mul_left _
      _ = _ := by ring
  have hacc : (mmul (mconv n) (fromWord 1) n (minv (n.word 0))).value ≡
      base.value ^ (e.value / 2 ^ (w * bits)) * 2 ^ (w * bits) [MOD n.value] := by
    rw [Nat.div_eq_of_lt e.value_lt, Nat.pow_zero, Nat.one_mul]
    apply hcancel
    calc _ ≡ (mconv n).value * (fromWord 1 : Wide bits w).value [MOD n.value] := mmul_modEq h hn _ _
      _ ≡ 2 ^ (w * bits) * 2 ^ (w * bits) [MOD n.value] := by rw [hone, Nat.mul_one]; exact hrrmod
  have hacclt := mmul_lt h hn (mconv n) (fromWord 1) (Or.inl hrrlt)
  obtain ⟨hlt, hloop⟩ := powmLoop_spec h hodd hbm e.value (w * bits) _ hacclt hacc
  have hfin := mmul_modEq h hn (powmLoop n (mmul base (mconv n) n (minv (n.word 0))) (minv (n.word 0)) e.value
    (w * bits) (mmul (mconv n) (fromWord 1) n (minv (n.word 0)))) (fromWord 1)
  have hfinlt := mmul_lt h hn (powmLoop n (mmul base (mconv n) n (minv (n.word 0))) (minv (n.word 0)) e.value
    (w * bits) (mmul (mconv n) (fromWord 1) n (minv (n.word 0)))) (fromWord 1) (Or.inl hlt)
  rw [hone, Nat.mul_one] at hfin
  have hres : (powm base e n).value ≡ base.value ^ e.value [MOD n.value] := hcancel (hfin.trans hloop)
  have hreslt : (powm base e n).value < n.value := hfinlt
  rw [← Nat.mod_eq_of_lt hreslt]
  exact hres

end Sys2Proof.Machine
end

