-- ==== Sys2Proof/Laws/OpcodeTable.lean ====
section
/-!
SUPPORT. The `match`/`mask` table of R54 against the field checks of R55: a word is taken apart into its four bytes.
-/

namespace Sys2Proof

/-- Byte `k` of a command word, byte 3 the most significant. -/
def wordByte (x : BitVec 32) (k : Nat) : BitVec 8 := x.extractLsb' (8 * k) 8

/-- A masked comparison holds iff it holds byte by byte. -/
theorem and_eq_iff_bytes (c m p : BitVec 32) :
    c &&& m = p ↔ wordByte c 3 &&& wordByte m 3 = wordByte p 3 ∧ wordByte c 2 &&& wordByte m 2 = wordByte p 2 ∧
      wordByte c 1 &&& wordByte m 1 = wordByte p 1 ∧ wordByte c 0 &&& wordByte m 0 = wordByte p 0 := by
  constructor
  · rintro rfl
    simp only [wordByte, BitVec.extractLsb'_and, and_self]
  · rintro ⟨h3, h2, h1, h0⟩
    apply BitVec.eq_of_getLsbD_eq
    intro i hi
    have key : ∀ k, wordByte c k &&& wordByte m k = wordByte p k → ∀ j, j < 8 →
        (c &&& m).getLsbD (8 * k + j) = p.getLsbD (8 * k + j) := by
      intro k h j hj
      have := congrArg (fun b => b.getLsbD j) h
      simpa [wordByte, BitVec.getLsbD_extractLsb', hj] using this
    have hij : i = 8 * (i / 8) + i % 8 := by omega
    have hm : i % 8 < 8 := by omega
    rw [hij]
    have : i / 8 = 0 ∨ i / 8 = 1 ∨ i / 8 = 2 ∨ i / 8 = 3 := by omega
    rcases this with h | h | h | h <;> rw [h] <;> exact key _ (by assumption) _ hm

theorem toNat_wordByte (c : BitVec 32) (k : Nat) : (wordByte c k).toNat = c.toNat / 2 ^ (8 * k) % 2 ^ 8 := by
  simp [wordByte, Nat.shiftRight_eq_div_pow]

/-- The mask of a byte that holds two register fields, by whether the command uses them. -/
def fieldMask (high low : Bool) : BitVec 8 :=
  match high, low with
  | true, true => 0x88
  | true, false => 0x8F
  | false, true => 0xF8
  | false, false => 0xFF

/-- The mask of bits 7:0, by opcode (R51). -/
def lowMask : Opcode → BitVec 8
  | .mmul => 0x8F
  | .shli | .shri => 0x00
  | _ => 0xFF

theorem and_fieldMask (b : BitVec 8) (high low : Bool) :
    b &&& fieldMask high low = 0 ↔
      (b.toNat / 128 = 0 ∧ b.toNat / 8 % 2 = 0) ∧ (high = true ∨ b.toNat / 16 % 8 = 0) ∧ (low = true ∨ b.toNat % 8 = 0) := by
  revert b high low
  decide +kernel

/-- The masks and patterns of the table, byte by byte, are those of R51, R52 and R54. -/
theorem opcodeTable_bytes : ∀ row ∈ opcodeTable,
    wordByte row.mask 3 = 0xFF ∧ wordByte row.mask 2 = fieldMask row.opcode.uses.rd row.opcode.uses.ra ∧
      wordByte row.mask 1 = fieldMask row.opcode.uses.rb row.opcode.uses.rc ∧
      wordByte row.mask 0 = lowMask row.opcode ∧ (wordByte row.pattern 3).toNat = row.opcode.byte ∧
      wordByte row.pattern 2 = 0 ∧ wordByte row.pattern 1 = 0 ∧ wordByte row.pattern 0 = 0 := by
  decide +kernel

theorem and_ff (b v : BitVec 8) : b &&& 0xFF = v ↔ b.toNat = v.toNat := by
  rw [show (0xFF : BitVec 8) = BitVec.allOnes 8 by decide, BitVec.and_allOnes, BitVec.toNat_inj]

/-- The fields of a command word (R51) as parts of its bytes. -/
theorem bitField_bytes (c : BitVec 32) :
    (bitField c 31 24 = (wordByte c 3).toNat ∧
    bitField c 23 23 = (wordByte c 2).toNat / 128 ∧ bitField c 22 20 = (wordByte c 2).toNat / 16 % 8 ∧
    bitField c 19 19 = (wordByte c 2).toNat / 8 % 2 ∧ bitField c 18 16 = (wordByte c 2).toNat % 8) ∧
    (bitField c 15 15 = (wordByte c 1).toNat / 128 ∧ bitField c 14 12 = (wordByte c 1).toNat / 16 % 8 ∧
    bitField c 11 11 = (wordByte c 1).toNat / 8 % 2 ∧ bitField c 10 8 = (wordByte c 1).toNat % 8) ∧
    (bitField c 7 0 = (wordByte c 0).toNat ∧ bitField c 7 7 = (wordByte c 0).toNat / 128 ∧
    bitField c 3 0 = (wordByte c 0).toNat % 16) := by
  have hc := c.isLt
  simp only [bitField, toNat_wordByte]
  norm_num
  omega

theorem and_lowMask (o : Opcode) (c : BitVec 32) :
    wordByte c 0 &&& lowMask o = 0 ↔ lowByteAllowed o c = true := by
  have h : ∀ b : BitVec 8, b &&& 0x8F = 0 ↔ b.toNat / 128 = 0 ∧ b.toNat % 16 = 0 := fun b =>
    (and_fieldMask b true false).trans (by simp only [reduceCtorEq, true_or, false_or, true_and]; omega)
  obtain ⟨-, -, h1, h2, h3⟩ := bitField_bytes c
  cases o <;>
    first
    | exact (and_ff _ _).trans (by simp [lowByteAllowed, h1])
    | exact (h _).trans (by simp [lowByteAllowed, h2, h3])
    | simp [lowMask, lowByteAllowed]

/-- A word spells a row of the table iff its fields pass the checks of R55 that name the row's opcode (R54). -/
theorem TableRow.spells_iff {row : TableRow} (h : row ∈ opcodeTable) (c : BitVec 32) :
    row.spells c = true ↔ bitField c 31 24 = row.opcode.byte ∧ mustBeZeroBitsClear c = true ∧
      unusedFieldsClear row.opcode c = true ∧ lowByteAllowed row.opcode c = true := by
  obtain ⟨⟨f1, f2, f3, f4, f5⟩, ⟨f6, f7, f8, f9⟩, -⟩ := bitField_bytes c
  obtain ⟨m3, m2, m1, m0, p3, p2, p1, p0⟩ := opcodeTable_bytes row h
  simp only [TableRow.spells, beq_iff_eq, and_eq_iff_bytes, mustBeZeroBitsClear, unusedFieldsClear, f1, f2, f3, f4, f5,
    f6, f7, f8, f9, Bool.and_eq_true, Bool.or_eq_true, m3, m2, m1, m0, p2, p1, p0, and_ff, p3, and_fieldMask, and_lowMask]
  constructor
  · rintro ⟨h1, ⟨⟨h2, h3⟩, h4, h5⟩, ⟨⟨h6, h7⟩, h8, h9⟩, h10⟩
    exact ⟨h1, ⟨⟨⟨h2, h3⟩, h6⟩, h7⟩, ⟨⟨⟨h4, h5⟩, h8⟩, h9⟩, h10⟩
  · rintro ⟨h1, ⟨⟨⟨h2, h3⟩, h6⟩, h7⟩, ⟨⟨⟨h4, h5⟩, h8⟩, h9⟩, h10⟩
    exact ⟨h1, ⟨⟨h2, h3⟩, h4, h5⟩, ⟨⟨h6, h7⟩, h8, h9⟩, h10⟩

end Sys2Proof
end

