-- ==== Sys2Proof/Laws/PerInstr.lean ====
section
/-!
SUPPORT. One lemma per command: bits 31:24 of a command's word are its opcode byte (R51, R54).
-/

namespace Sys2Proof.Laws

/-- Bits 31:24 of the word of `i` are the opcode byte of its row in R54. -/
def OpcodeOf.Statement (i : Instr) : Prop := bitField (encode i) 31 24 = i.opcode.byte

/-- The opcode byte of a packed command word, for a low byte in range. -/
theorem opcode_of_packCommand (o : Opcode) (rd ra rb rc : Fin 8) {lo8 : Nat} (h : lo8 < 256) :
    bitField (packCommand o rd ra rb rc lo8) 31 24 = o.byte :=
  (bitField_packCommand o rd ra rb rc h).1

theorem OpcodeOf.czero (rd : Fin 8) : OpcodeOf.Statement (.czero rd) :=
  opcode_of_packCommand .czero _ _ _ _ (by decide)

theorem OpcodeOf.cone (rd : Fin 8) : OpcodeOf.Statement (.cone rd) :=
  opcode_of_packCommand .cone _ _ _ _ (by decide)

theorem OpcodeOf.ctwo (rd : Fin 8) : OpcodeOf.Statement (.ctwo rd) :=
  opcode_of_packCommand .ctwo _ _ _ _ (by decide)

theorem OpcodeOf.cthree (rd : Fin 8) : OpcodeOf.Statement (.cthree rd) :=
  opcode_of_packCommand .cthree _ _ _ _ (by decide)

theorem OpcodeOf.fromw (rd : Fin 8) (ra : Fin 8) : OpcodeOf.Statement (.fromw rd ra) :=
  opcode_of_packCommand .fromw _ _ _ _ (by decide)

theorem OpcodeOf.isz (ra : Fin 8) : OpcodeOf.Statement (.isz ra) :=
  opcode_of_packCommand .isz _ _ _ _ (by decide)

theorem OpcodeOf.lowb (ra : Fin 8) : OpcodeOf.Statement (.lowb ra) :=
  opcode_of_packCommand .lowb _ _ _ _ (by decide)

theorem OpcodeOf.equ (ra : Fin 8) (rb : Fin 8) : OpcodeOf.Statement (.equ ra rb) :=
  opcode_of_packCommand .equ _ _ _ _ (by decide)

theorem OpcodeOf.cmp (ra : Fin 8) (rb : Fin 8) : OpcodeOf.Statement (.cmp ra rb) :=
  opcode_of_packCommand .cmp _ _ _ _ (by decide)

theorem OpcodeOf.addw (rd : Fin 8) (ra : Fin 8) (rb : Fin 8) : OpcodeOf.Statement (.addw rd ra rb) :=
  opcode_of_packCommand .addw _ _ _ _ (by decide)

theorem OpcodeOf.add (rd : Fin 8) (ra : Fin 8) (rb : Fin 8) : OpcodeOf.Statement (.add rd ra rb) :=
  opcode_of_packCommand .add _ _ _ _ (by decide)

theorem OpcodeOf.sub (rd : Fin 8) (ra : Fin 8) (rb : Fin 8) : OpcodeOf.Statement (.sub rd ra rb) :=
  opcode_of_packCommand .sub _ _ _ _ (by decide)

theorem OpcodeOf.shl (rd : Fin 8) (ra : Fin 8) (rb : Fin 8) : OpcodeOf.Statement (.shl rd ra rb) :=
  opcode_of_packCommand .shl _ _ _ _ (by decide)

theorem OpcodeOf.shr (rd : Fin 8) (ra : Fin 8) (rb : Fin 8) : OpcodeOf.Statement (.shr rd ra rb) :=
  opcode_of_packCommand .shr _ _ _ _ (by decide)

theorem OpcodeOf.shli (rd : Fin 8) (ra : Fin 8) (imm8 : BitVec 8) : OpcodeOf.Statement (.shli rd ra imm8) :=
  opcode_of_packCommand .shli _ _ _ _ imm8.isLt

theorem OpcodeOf.shri (rd : Fin 8) (ra : Fin 8) (imm8 : BitVec 8) : OpcodeOf.Statement (.shri rd ra imm8) :=
  opcode_of_packCommand .shri _ _ _ _ imm8.isLt

theorem OpcodeOf.egcd (rd : Fin 8) (rc : Fin 8) (ra : Fin 8) (rb : Fin 8) : OpcodeOf.Statement (.egcd rd rc ra rb) :=
  opcode_of_packCommand .egcd _ _ _ _ (by decide)

theorem OpcodeOf.minv (rd : Fin 8) (ra : Fin 8) : OpcodeOf.Statement (.minv rd ra) :=
  opcode_of_packCommand .minv _ _ _ _ (by decide)

theorem OpcodeOf.mmul (rd : Fin 8) (ra : Fin 8) (rb : Fin 8) (rc : Fin 8) (re : Fin 8) : OpcodeOf.Statement (.mmul rd ra rb rc re) :=
  opcode_of_packCommand .mmul _ _ _ _ (by omega)

theorem OpcodeOf.mconv (rd : Fin 8) (rc : Fin 8) : OpcodeOf.Statement (.mconv rd rc) :=
  opcode_of_packCommand .mconv _ _ _ _ (by decide)

theorem OpcodeOf.powm (rd : Fin 8) (ra : Fin 8) (rb : Fin 8) (rc : Fin 8) : OpcodeOf.Statement (.powm rd ra rb rc) :=
  opcode_of_packCommand .powm _ _ _ _ (by decide)

end Sys2Proof.Laws
end

