-- ==== Sys2Proof/Laws/Shifter.lean ====
section
/-!
SUPPORT. The shift functions in numbers (R95): `(a * 2^k) mod R` and `a div 2^k`.
-/

namespace Sys2Proof.Machine

theorem length_shlWords {bits : Nat} (k : Nat) (u : Word bits) (l : List (Word bits)) :
    (shlWords k u l).length = l.length := by
  induction l generalizing u with
  | nil => rfl
  | cons x xs ih => simp [shlWords, ih]

theorem length_shrWords {bits : Nat} (k : Nat) (l : List (Word bits)) : (shrWords k l).length = l.length := by
  induction l with
  | nil => rfl
  | cons x xs ih => simp [shrWords, ih]

theorem toNat_carriedUp {bits k : Nat} (hk : k < bits) (u : Word bits) :
    (carriedUp k u).toNat = u.toNat / 2 ^ (bits - k) := by
  have hu := u.isLt
  rw [carriedUp]
  split
  · rw [BitVec.toNat_ofNat]
    exact Nat.mod_eq_of_lt (lt_of_le_of_lt (Nat.div_le_self _ _) hu)
  · have : k = 0 := by omega
    subst this
    simp [Nat.div_eq_of_lt hu]

/-- One word of a left shift (R95): the two parts that are OR-ed never overlap. -/
theorem toNat_shlWord {bits k : Nat} (hk : k < bits) (x u : Word bits) :
    (BitVec.ofNat bits (x.toNat * 2 ^ k) ||| carriedUp k u).toNat =
      x.toNat % 2 ^ (bits - k) * 2 ^ k + u.toNat / 2 ^ (bits - k) := by
  have hu := u.isLt
  have hsplit : 2 ^ bits = 2 ^ (bits - k) * 2 ^ k := by rw [← Nat.pow_add]; congr 1; omega
  have hlow : u.toNat / 2 ^ (bits - k) < 2 ^ k := by
    rw [Nat.div_lt_iff_lt_mul (Nat.two_pow_pos _), Nat.mul_comm, ← hsplit]
    exact hu
  rw [BitVec.toNat_or, BitVec.toNat_ofNat, toNat_carriedUp hk, hsplit, Nat.mul_mod_mul_right, Nat.mul_comm _ (2 ^ k),
    Nat.two_pow_add_eq_or_of_lt hlow]

theorem shlWords_spec {bits k : Nat} (hk : k < bits) (u : Word bits) (l : List (Word bits)) :
    ∃ c, wordsValue (shlWords k u l) + 2 ^ (l.length * bits) * c =
      wordsValue l * 2 ^ k + u.toNat / 2 ^ (bits - k) := by
  induction l generalizing u with
  | nil => exact ⟨u.toNat / 2 ^ (bits - k), by simp [shlWords, wordsValue]⟩
  | cons x xs ih =>
    obtain ⟨c, h⟩ := ih x
    refine ⟨c, ?_⟩
    have hsplit : 2 ^ bits = 2 ^ (bits - k) * 2 ^ k := by rw [← Nat.pow_add]; congr 1; omega
    have hx : x.toNat * 2 ^ k =
        x.toNat % 2 ^ (bits - k) * 2 ^ k + 2 ^ bits * (x.toNat / 2 ^ (bits - k)) := by
      conv_lhs => rw [← Nat.mod_add_div x.toNat (2 ^ (bits - k))]
      rw [hsplit]
      ring
    rw [pow_cons_length, shlWords, wordsValue, wordsValue, toNat_shlWord hk, Nat.add_mul, hx, Nat.mul_assoc,
      Nat.mul_assoc]
    have := congrArg (2 ^ bits * ·) h
    simp only [Nat.mul_add] at this
    omega

/-- SHL's closed form (R95): `(Value(a) * 2^k) mod R`. -/
theorem value_shlWide {bits w k : Nat} (hk : k < bits) (a : Wide bits w) :
    (shlWide a k).value = a.value * 2 ^ k % 2 ^ (w * bits) := by
  obtain ⟨c, h⟩ := shlWords_spec hk 0 a.words
  rw [a.length_eq] at h
  have hv : (shlWide a k).value = wordsValue (shlWords k 0 a.words) :=
    Wide.value_ofWords ((length_shlWords _ _ _).trans a.length_eq)
  refine mod_of_add_mul (c := c) (Wide.value_lt _) ?_
  rw [hv, h]
  simp [Wide.value]

theorem toNat_carriedDown {bits k : Nat} (hk : k < bits) (l : List (Word bits)) :
    (carriedDown k l).toNat = 2 ^ (bits - k) * (wordsValue l % 2 ^ k) := by
  cases l with
  | nil => simp [carriedDown, wordsValue]
  | cons y ys =>
    have hsplit : 2 ^ bits = 2 ^ k * 2 ^ (bits - k) := by rw [← Nat.pow_add]; congr 1; omega
    have hmod : wordsValue (y :: ys) % 2 ^ k = y.toNat % 2 ^ k := by
      rw [wordsValue, hsplit, Nat.mul_assoc, Nat.add_mul_mod_self_left]
    rw [hmod, carriedDown]
    split
    · rw [BitVec.toNat_ofNat, hsplit, Nat.mul_mod_mul_right, Nat.mul_comm]
    · have : k = 0 := by omega
      subst this
      simp [Nat.mod_one]

/-- One word of a right shift (R95): the two parts that are OR-ed never overlap. -/
theorem toNat_shrWord {bits k : Nat} (hk : k < bits) (x : Word bits) (l : List (Word bits)) :
    (BitVec.ofNat bits (x.toNat / 2 ^ k) ||| carriedDown k l).toNat =
      x.toNat / 2 ^ k + 2 ^ (bits - k) * (wordsValue l % 2 ^ k) := by
  have hx := x.isLt
  have hsplit : 2 ^ bits = 2 ^ (bits - k) * 2 ^ k := by rw [← Nat.pow_add]; congr 1; omega
  have hlow : x.toNat / 2 ^ k < 2 ^ (bits - k) := by
    rw [Nat.div_lt_iff_lt_mul (Nat.two_pow_pos _), ← hsplit]
    exact hx
  rw [BitVec.toNat_or, BitVec.toNat_ofNat, toNat_carriedDown hk,
    Nat.mod_eq_of_lt (lt_of_le_of_lt (Nat.div_le_self _ _) hx), Nat.or_comm, ← Nat.two_pow_add_eq_or_of_lt hlow,
    Nat.add_comm]

theorem shrWords_spec {bits k : Nat} (hk : k < bits) (l : List (Word bits)) :
    wordsValue (shrWords k l) = wordsValue l / 2 ^ k := by
  induction l with
  | nil => simp [shrWords, wordsValue]
  | cons x xs ih =>
    have hsplit : 2 ^ bits = 2 ^ k * 2 ^ (bits - k) := by rw [← Nat.pow_add]; congr 1; omega
    rw [shrWords, wordsValue, wordsValue, toNat_shrWord hk, ih, hsplit,
      Nat.mul_assoc (2 ^ k) (2 ^ (bits - k)) (wordsValue xs), Nat.mul_assoc (2 ^ k) (2 ^ (bits - k)) (_ / _),
      Nat.add_mul_div_left _ _ (Nat.two_pow_pos k)]
    have hV := congrArg (2 ^ (bits - k) * ·) (Nat.mod_add_div (wordsValue xs) (2 ^ k))
    simp only [Nat.mul_add] at hV
    have hcomm : 2 ^ k * (2 ^ (bits - k) * (wordsValue xs / 2 ^ k)) =
        2 ^ (bits - k) * (2 ^ k * (wordsValue xs / 2 ^ k)) := by ring
    omega

/-- SHR's closed form (R95): `Value(a) div 2^k`. -/
theorem value_shrWide {bits w k : Nat} (hk : k < bits) (a : Wide bits w) :
    (shrWide a k).value = a.value / 2 ^ k := by
  have hv : (shrWide a k).value = wordsValue (shrWords k a.words) :=
    Wide.value_ofWords ((length_shrWords _ _).trans a.length_eq)
  rw [hv, shrWords_spec hk, Wide.value]

end Sys2Proof.Machine
end

