-- ==== Sys2Proof/Machine/HostSoftware.lean ====
section
/-!
DEFINITION. `48_host_software.md`: the text format of a wide value (R135 to R139), the Miller-Rabin tester (R140,
R141, R143, R144) and the reference host program that runs it on the block (R142). None of it is part of the block
(R4): these are functions of the host; the program drives `step` one port operation at a time (log 15).
-/

namespace Sys2Proof.Machine

/-- `digit(c)` (R138): the 22 hexadecimal digit characters; any other character is malformed input. -/
def hexDigit (c : Char) : Option Nat :=
  if '0'.toNat ≤ c.toNat ∧ c.toNat ≤ '9'.toNat then some (c.toNat - '0'.toNat)
  else if 'a'.toNat ≤ c.toNat ∧ c.toNat ≤ 'f'.toNat then some (c.toNat - 'a'.toNat + 10)
  else if 'A'.toNat ≤ c.toNat ∧ c.toNat ≤ 'F'.toNat then some (c.toNat - 'A'.toNat + 10)
  else none

/-- The number that hexadecimal digits spell, most significant first, after the number read so far (R136). -/
def hexNumber : (sofar : Nat) → List Char → Option Nat
  | sofar, [] => some sofar
  | sofar, c :: cs =>
    match hexDigit c with
    | some d => hexNumber (sofar * 16 + d) cs
    | none => none

/-- `from_hex(str)` (R136): the number modulo `2^(W*BITS)` (truncation, decision D26); malformed text has no value
(R138, U8). -/
def fromHex {bits w : Nat} (text : List Char) : Option (Wide bits w) := (hexNumber 0 text).map Wide.ofNat

/-- The character of a hexadecimal digit, lower case (R139, decision D26). -/
def hexChar (d : Nat) : Char := if d < 10 then Char.ofNat ('0'.toNat + d) else Char.ofNat ('a'.toNat + (d - 10))

/-- A number as `count` hexadecimal digits, most significant first, leading zeros kept (R139). -/
def hexDigits : (count n : Nat) → List Char
  | 0, _ => []
  | count + 1, n => hexDigits count (n / 16) ++ [hexChar (n % 16)]

/-- `to_hex(x)` (R139): word `W-1` first, each word as `BITS / 4` digits. -/
def toHex {bits w : Nat} (a : Wide bits w) : List Char :=
  a.words.reverse.flatMap fun x => hexDigits (bits / 4) x.toNat

/-- The decomposition of R140: halve `d` and count in `r` while `d` is even (at most `fuel` times). -/
def decompose : (fuel d r : Nat) → Nat × Nat
  | 0, d, r => (d, r)
  | fuel + 1, d, r => if d % 2 = 0 then decompose fuel (d / 2) (r + 1) else (d, r)

/-- Step 4 of the witness loop (R140): square up to `count` times, stopping when `n - 1` is seen. -/
def squaringsReach (n : Nat) : (count x : Nat) → Bool
  | 0, _ => false
  | count + 1, x => let y := x * x % n; y == n - 1 || squaringsReach n count y

/-- Steps 2 to 4 of the witness loop (R140): is the round inconclusive-favourable? -/
def roundFavourable (n d r a : Nat) : Bool :=
  let x := a ^ d % n
  x == 1 || x == n - 1 || squaringsReach n (r - 1) x

/-- The witness loop (R140) over a given sequence of draws (R143): a draw outside `[2, n-2]` is redrawn; no answer
when the draws run out. -/
def witnessLoop (n d r : Nat) : (draws : List Nat) → (rounds : Nat) → Option Bool
  | _, 0 => some true
  | [], _ + 1 => none
  | a :: draws, k + 1 =>
    if a < 2 ∨ n - 2 < a then witnessLoop n d r draws (k + 1)
    else if roundFavourable n d r a then witnessLoop n d r draws k
    else some false

/-- `is_probable_prime(n, rounds)` (R140) with the parity step of R141; the random source is the list of draws. -/
def isProbablePrime (n rounds : Nat) (draws : List Nat) : Option Bool :=
  if n < 2 then some false
  else if n = 2 ∨ n = 3 then some true
  else if n % 2 = 0 then some false
  else
    let (d, r) := decompose n (n - 1) 0
    witnessLoop n d r draws rounds

/-- The host performs one port operation and waits for it (R38). -/
def hostDo (s : State) (op : PortOp s.params.bits) : State :=
  match step { s with port := [op] } with
  | .next t => t
  | _ => s

/-- The host issues commands one after the other (R37). -/
def hostIssue : List Instr → State → State
  | [], s => s
  | i :: is, s => hostIssue is (hostDo s (.issue (encode i)))

/-- The host issues commands, then reads `FLAGS` with `RDC 0` (R34). -/
def hostAsk (is : List Instr) (s : State) : BitVec 32 × State :=
  let t := hostIssue is s
  let u := hostDo t (.rdc 0)
  match u.answer with
  | .csr x => (x, u)
  | _ => (0, u)

/-- `LOADV vr, x`: the `W` operations `WRV vr[j], x[j]` (R57). -/
def hostLoadV (r x : Nat) (s : State) : State :=
  (List.range s.params.words).foldl
    (fun t j => hostDo t (.wrv r j (BitVec.ofNat t.params.bits (x / 2 ^ (t.params.bits * j))))) s

/-- `RDV v0[0] -> w ; WRS s0, w` (R142). -/
def hostCopyLowWord (s : State) : State :=
  let t := hostDo s (.rdv 0 0)
  match t.answer with
  | .word x => hostDo t (.wrs 0 (BitVec.ofNat t.params.bits x.toNat))
  | _ => t

/-- The decomposition loop of R142: `LOWB v2`, and `SHRI v2, v2, 1` while `L = 0`. -/
def hostDecompose : (fuel r : Nat) → State → Nat × State
  | 0, r, s => (r, s)
  | fuel + 1, r, s =>
    let (f, s) := hostAsk [.lowb 2] s
    if flagL f = 0 then hostDecompose fuel (r + 1) (hostIssue [.shri 2 2 1] s) else (r, s)

/-- The squarings of R142: `x*x mod n` by two MMULs, compared with `n - 1`, at most `count` times. -/
def hostSquarings : (count : Nat) → State → Bool × State
  | 0, s => (false, s)
  | count + 1, s =>
    let (f, s) := hostAsk [.msqr 4 4 0 1, .mmul 4 4 6 0 1, .equ 4 1] s
    if flagE f = 1 then (true, s) else hostSquarings count s

/-- Is the draw in `v3` inside `[2, n-2]` (R142: ISZ, EQU with one, CMP with `n - 2`, each read at once)? -/
def hostDrawInRange (s : State) : Bool × State :=
  let (f, s) := hostAsk [.isz 3] s
  if flagZ f = 1 then (false, s)
  else
    let (f, s) := hostAsk [.equ 3 5] s
    if flagE f = 1 then (false, s)
    else
      let (f, s) := hostAsk [.cmp 3 7] s
      (flagOrd f != 2, s)

/-- One round of R142 with the base in `v3`: is it inconclusive-favourable? -/
def hostRound (r : Nat) (s : State) : Bool × State :=
  let (f, s) := hostAsk [.powm 4 3 2 0, .equ 4 5] s
  if flagE f = 1 then (true, s)
  else
    let (f, s) := hostAsk [.equ 4 1] s
    if flagE f = 1 then (true, s) else hostSquarings (r - 1) s

/-- The rounds of R142 over a given sequence of draws (R143). -/
def hostRounds (r : Nat) : (draws : List Nat) → (rounds : Nat) → State → Option Bool × State
  | _, 0, s => (some true, s)
  | [], _ + 1, s => (none, s)
  | a :: draws, k + 1, s =>
    let (inRange, s) := hostDrawInRange (hostLoadV 3 a s)
    if inRange then
      let (favourable, s) := hostRound r s
      if favourable then hostRounds r draws k s else (some false, s)
    else hostRounds r draws (k + 1) s

/-- The reference host program of R142: the tester of R140 run on the block. -/
def hostTester (n rounds : Nat) (draws : List Nat) (s : State) : Option Bool × State :=
  let (f, s) := hostAsk [.ctwo 5, .cmp 0 5] (hostLoadV 0 n s)
  if flagOrd f = 1 then (some false, s)
  else if flagOrd f = 0 then (some true, s)
  else
    let (f, s) := hostAsk [.cthree 5, .equ 0 5] s
    if flagE f = 1 then (some true, s)
    else
      let (f, s) := hostAsk [.lowb 0] s
      if flagL f = 0 then (some false, s)
      else
        let s := hostIssue [.cone 5, .sub 1 0 5, .ctwo 5, .sub 7 0 5, .mov 2 1] s
        let (r, s) := hostDecompose (s.params.words * s.params.bits) 0 s
        let s := hostIssue [.minv 1 0, .mconv 6 0, .cone 5] (hostCopyLowWord s)
        hostRounds r draws rounds s

end Sys2Proof.Machine
end

