-- ==== Sys2Proof/Machine/Listing.lean ====
section
/-!
DEFINITION. The listing syntax of commands (R57): mnemonic, then the operands, destinations first. Notation only; the
hardware knows nothing of it.
-/

namespace Sys2Proof.Machine

/-- A wide register's assembler name (R11, R57). -/
def vName (r : VReg) : String := "v" ++ toString r.val

/-- A word register's assembler name (R12, R57). -/
def sName (r : SReg) : String := "s" ++ toString r.val

/-- Mnemonic and operands as R57 writes them. -/
def listingOf (mnemonic : String) (operands : List String) : String :=
  mnemonic ++ " " ++ String.intercalate ", " operands

/-- A command in the listing syntax of R57. -/
def listing : Instr → String
  | .czero rd => listingOf "CZERO" [vName rd]
  | .cone rd => listingOf "CONE" [vName rd]
  | .ctwo rd => listingOf "CTWO" [vName rd]
  | .cthree rd => listingOf "CTHREE" [vName rd]
  | .fromw rd ra => listingOf "FROMW" [vName rd, sName ra]
  | .isz ra => listingOf "ISZ" [vName ra]
  | .lowb ra => listingOf "LOWB" [vName ra]
  | .equ ra rb => listingOf "EQU" [vName ra, vName rb]
  | .cmp ra rb => listingOf "CMP" [vName ra, vName rb]
  | .addw rd ra rb => listingOf "ADDW" [vName rd, vName ra, sName rb]
  | .add rd ra rb => listingOf "ADD" [vName rd, vName ra, vName rb]
  | .sub rd ra rb => listingOf "SUB" [vName rd, vName ra, vName rb]
  | .shl rd ra rb => listingOf "SHL" [vName rd, vName ra, sName rb]
  | .shr rd ra rb => listingOf "SHR" [vName rd, vName ra, sName rb]
  | .shli rd ra imm8 => listingOf "SHLI" [vName rd, vName ra, toString imm8.toNat]
  | .shri rd ra imm8 => listingOf "SHRI" [vName rd, vName ra, toString imm8.toNat]
  | .egcd rd rc ra rb => listingOf "EGCD" [sName rd, sName rc, sName ra, sName rb]
  | .minv rd ra => listingOf "MINV" [sName rd, sName ra]
  | .mmul rd ra rb rc re => listingOf "MMUL" [vName rd, vName ra, vName rb, vName rc, sName re]
  | .mconv rd rc => listingOf "MCONV" [vName rd, vName rc]
  | .powm rd ra rb rc => listingOf "POWM" [vName rd, vName ra, vName rb, vName rc]

end Sys2Proof.Machine
end

