-- ==== Sys2Proof/Tests/Slice0.lean ====
section
/-!
SUPPORT. Tests: the well-formedness smoke test, every command's word written out from `30_encoding.md`, one step of
every command on small states, and a witness for the hypotheses of every statement of
`Sys2Proof/Certificates/Slice0/Obligations.lean`. Expected results are those of `95_test_vectors.md` section 2 or of the
examples in the rule named; unless said otherwise the block is `BITS = 8`, `W = 2`.
-/

open Sys2Proof Sys2Proof.Machine

namespace Sys2Proof.Tests

-- One test is checked at a time: each kernel check would hold a thread of its own.
set_option Elab.async false

/-! ## Well-formedness (R55, R107) -/

theorem test_egcd_equal_destinations_refused : (Instr.egcd 3 3 1 2).wellFormed = false := by decide

theorem test_egcd_distinct_destinations_accepted : (Instr.egcd 3 4 3 3).wellFormed = true := by decide

/-! ## Decoding: words written out bit by bit from the encoding column of R54 (`op|z rd|z ra|z rb|z rc|lo8`) -/

theorem test_decode_czero : decodeTableWord 32 0b00000001_0_011_0_000_0_000_0_000_00000000 = some (.czero 3) := by decide

theorem test_decode_cone : decodeTableWord 32 0b00000010_0_000_0_000_0_000_0_000_00000000 = some (.cone 0) := by decide

theorem test_decode_ctwo : decodeTableWord 32 0b00000011_0_001_0_000_0_000_0_000_00000000 = some (.ctwo 1) := by decide

theorem test_decode_cthree : decodeTableWord 32 0b00000100_0_111_0_000_0_000_0_000_00000000 = some (.cthree 7) := by decide

theorem test_decode_fromw : decodeTableWord 32 0b00000101_0_001_0_010_0_000_0_000_00000000 = some (.fromw 1 2) := by decide

theorem test_decode_isz : decodeTableWord 32 0b00001000_0_000_0_100_0_000_0_000_00000000 = some (.isz 4) := by decide

theorem test_decode_lowb : decodeTableWord 32 0b00001001_0_000_0_010_0_000_0_000_00000000 = some (.lowb 2) := by decide

theorem test_decode_equ : decodeTableWord 32 0b00001010_0_000_0_001_0_010_0_000_00000000 = some (.equ 1 2) := by decide

theorem test_decode_cmp : decodeTableWord 32 0b00001011_0_000_0_100_0_101_0_000_00000000 = some (.cmp 4 5) := by decide

theorem test_decode_addw : decodeTableWord 32 0b00010000_0_110_0_001_0_011_0_000_00000000 = some (.addw 6 1 3) := by decide

theorem test_decode_add : decodeTableWord 32 0b00010001_0_001_0_010_0_011_0_000_00000000 = some (.add 1 2 3) := by decide

theorem test_decode_sub : decodeTableWord 32 0b00010010_0_001_0_010_0_011_0_000_00000000 = some (.sub 1 2 3) := by decide

theorem test_decode_shl : decodeTableWord 32 0b00011000_0_101_0_001_0_010_0_000_00000000 = some (.shl 5 1 2) := by decide

theorem test_decode_shr : decodeTableWord 32 0b00011001_0_101_0_001_0_010_0_000_00000000 = some (.shr 5 1 2) := by decide

theorem test_decode_shli : decodeTableWord 32 0b00011010_0_000_0_111_0_000_0_000_01000000 = some (.shli 0 7 64) := by decide

theorem test_decode_shri : decodeTableWord 32 0b00011011_0_010_0_101_0_000_0_000_11111111 = some (.shri 2 5 255) := by decide

theorem test_decode_egcd : decodeTableWord 32 0b00100000_0_000_0_010_0_011_0_001_00000000 = some (.egcd 0 1 2 3) := by decide

theorem test_decode_minv : decodeTableWord 32 0b00100001_0_111_0_110_0_000_0_000_00000000 = some (.minv 7 6) := by decide

theorem test_decode_mmul : decodeTableWord 32 0b00101000_0_000_0_001_0_010_0_011_0_100_0000 = some (.mmul 0 1 2 3 4) := by decide

theorem test_decode_mconv : decodeTableWord 32 0b00101001_0_101_0_000_0_000_0_011_00000000 = some (.mconv 5 3) := by decide

theorem test_decode_powm : decodeTableWord 32 0b00110000_0_000_0_001_0_010_0_011_00000000 = some (.powm 0 1 2 3) := by decide

/-- R59: the three illegal worked words, and the all-zero and all-ones words of R55. -/
theorem test_decode_illegal :
    decode 0x11923000 = .error .mustBeZeroBit ∧ decode 0x11123100 = .error .unusedField ∧
    decode 0x20023000 = .error .equalDestinations ∧ decode 0 = .error .unassignedOpcode ∧
    decode 0xFFFFFFFF = .error .unassignedOpcode ∧ decode 0x28012341 = .error .lowByte ∧
    decode 0x28012380 = .error .lowByte ∧ decode 0x01300001 = .error .lowByte := by decide

theorem test_encode_mmul : encode (.mmul 7 6 5 4 3) = 0x28765430 := by decide

theorem test_listing_egcd : listing (.egcd 0 1 2 3) = "EGCD s0, s1, s2, s3" := by decide +kernel

/-! ## One step of every command -/

/-- `BITS = 8`, `W = 2`. -/
def small : Params := ⟨.b8, 2, by decide⟩

/-- A wide value of two bytes, word 0 first. -/
def wide (w0 w1 : Word 8) : Wide 8 2 := ⟨[w0, w1], rfl⟩

/-- A clear block with these registers, `v0` and `s0` first. -/
def block (v : Vector (Wide 8 2) 8) (s : Vector (Word 8) 8) : State := { State.resetWith small with v := v, s := s }

/-- All wide registers the same. -/
def vAll (x : Wide 8 2) : Vector (Wide 8 2) 8 := Vector.replicate 8 x

/-- All word registers the same. -/
def sAll (x : Word 8) : Vector (Word 8) 8 := Vector.replicate 8 x

/-- What `f` reads after the step that issues the word `c`. -/
def afterIssue {α : Type} (f : State → α) (s : State) (c : Nat) : Option α :=
  match step (s.withFetchWord 32 c) with
  | .next t => some (f t)
  | _ => none

/-- The words of `v[r]`, word 0 first. -/
def vWords (r : VReg) (s : State) : List Nat := (s.readV r).words.map BitVec.toNat

/-- `s[r]`. -/
def sWord (r : SReg) (s : State) : Nat := (s.readS r).toNat

/-- `FSTAT`, `FCMD`, `CCNT`. -/
def record (s : State) : Nat × Nat × Nat := (s.fstat.toNat, s.fcmd.toNat, s.ccnt.toNat)

theorem test_czero :
    afterIssue (vWords 3) (block (vAll (wide 0xEE 0xDD)) (sAll 0xCC)) 0x01300000 = some [0x00, 0x00] := by
  decide +kernel

theorem test_cone :
    afterIssue (vWords 0) (block (vAll (wide 0xEE 0xDD)) (sAll 0xCC)) 0x02000000 = some [0x01, 0x00] := by
  decide +kernel

theorem test_ctwo :
    afterIssue (vWords 1) (block (vAll (wide 0xEE 0xDD)) (sAll 0xCC)) 0x03100000 = some [0x02, 0x00] := by
  decide +kernel

theorem test_cthree :
    afterIssue (vWords 7) (block (vAll (wide 0xEE 0xDD)) (sAll 0xCC)) 0x04700000 = some [0x03, 0x00] := by
  decide +kernel

theorem test_fromw_no_sign_extension :
    afterIssue (vWords 7) (block (vAll (wide 0xEE 0xDD)) ((sAll 0xCC).set 7 0xFF)) 0x05770000 = some [0xFF, 0x00] := by
  decide +kernel

theorem test_isz_zero :
    afterIssue State.flags (block ((vAll (wide 0xEE 0xDD)).set 4 (wide 0x00 0x00)) (sAll 0xCC)) 0x08040000 = some 0x01 := by
  decide +kernel

theorem test_isz_top_word_only :
    afterIssue State.flags (block ((vAll (wide 0xEE 0xDD)).set 4 (wide 0x00 0x01)) (sAll 0xCC)) 0x08040000 = some 0x00 := by
  decide +kernel

theorem test_lowb_even :
    afterIssue State.flags (block ((vAll (wide 0xEE 0xDD)).set 2 (wide 0x06 0xFF)) (sAll 0xCC)) 0x09020000 = some 0x00 := by
  decide +kernel

theorem test_lowb_odd :
    afterIssue State.flags (block ((vAll (wide 0xEE 0xDD)).set 2 (wide 0x07 0x00)) (sAll 0xCC)) 0x09020000 = some 0x02 := by
  decide +kernel

theorem test_equ_equal :
    afterIssue State.flags (block (((vAll (wide 0xEE 0xDD)).set 1 (wide 0x34 0x12)).set 2 (wide 0x34 0x12)) (sAll 0xCC)) 0x0A012000 = some 0x04 := by
  decide +kernel

theorem test_equ_top_word_differs :
    afterIssue State.flags (block (((vAll (wide 0xEE 0xDD)).set 1 (wide 0x34 0x12)).set 2 (wide 0x34 0x13)) (sAll 0xCC)) 0x0A012000 = some 0x00 := by
  decide +kernel

theorem test_cmp_top_word_decides :
    afterIssue State.flags (block (((vAll (wide 0xEE 0xDD)).set 4 (wide 0xFF 0x01)).set 5 (wide 0x00 0x02)) (sAll 0xCC)) 0x0B045000 = some 0x08 := by
  decide +kernel

theorem test_cmp_unsigned :
    afterIssue State.flags (block (((vAll (wide 0xEE 0xDD)).set 4 (wide 0xFF 0xFF)).set 5 (wide 0x00 0x00)) (sAll 0xCC)) 0x0B045000 = some 0x10 := by
  decide +kernel

theorem test_addw_carry :
    afterIssue (vWords 0) (block ((vAll (wide 0xEE 0xDD)).set 1 (wide 0xFF 0x12)) ((sAll 0xCC).set 3 0xFF)) 0x10013000 = some [0xFE, 0x13] := by
  decide +kernel

theorem test_addw_wraps :
    afterIssue (vWords 0) (block ((vAll (wide 0xEE 0xDD)).set 1 (wide 0xFF 0xFF)) ((sAll 0xCC).set 3 0x01)) 0x10013000 = some [0x00, 0x00] := by
  decide +kernel

theorem test_add_second_stage_carry :
    afterIssue (vWords 1) (block (((vAll (wide 0xEE 0xDD)).set 2 (wide 0xFF 0x01)).set 3 (wide 0x01 0xFE)) (sAll 0xCC)) 0x11123000 = some [0x00, 0x00] := by
  decide +kernel

theorem test_add_aliased :
    afterIssue (vWords 2) (block ((vAll (wide 0xEE 0xDD)).set 2 (wide 0x34 0x92)) (sAll 0xCC)) 0x11222000 = some [0x68, 0x24] := by
  decide +kernel

theorem test_sub_borrow :
    afterIssue (vWords 1) (block (((vAll (wide 0xEE 0xDD)).set 2 (wide 0x00 0x02)).set 3 (wide 0x01 0x01)) (sAll 0xCC)) 0x12123000 = some [0xFF, 0x00] := by
  decide +kernel

theorem test_sub_second_stage_borrow :
    afterIssue (vWords 1) (block (((vAll (wide 0xEE 0xDD)).set 2 (wide 0x00 0x01)).set 3 (wide 0x01 0x01)) (sAll 0xCC)) 0x12123000 = some [0xFF, 0xFF] := by
  decide +kernel

theorem test_shl_largest_amount :
    afterIssue (vWords 0) (block ((vAll (wide 0xEE 0xDD)).set 1 (wide 0x81 0x01)) ((sAll 0xCC).set 2 0x07)) 0x18012000 = some [0x80, 0xC0] := by
  decide +kernel

theorem test_shl_faults :
    afterIssue record (block ((vAll (wide 0xEE 0xDD)).set 1 (wide 0x81 0x01)) ((sAll 0xCC).set 2 0x08)) 0x18012000 = some (0x21, 0x18012000, 0) := by
  decide +kernel

theorem test_shr_largest_amount :
    afterIssue (vWords 0) (block ((vAll (wide 0xEE 0xDD)).set 1 (wide 0x81 0x01)) ((sAll 0xCC).set 2 0x07)) 0x19012000 = some [0x03, 0x00] := by
  decide +kernel

theorem test_shr_faults :
    afterIssue record (block ((vAll (wide 0xEE 0xDD)).set 1 (wide 0x81 0x01)) ((sAll 0xCC).set 2 0xFF)) 0x19012000 = some (0x21, 0x19012000, 0) := by
  decide +kernel

theorem test_shli :
    afterIssue (vWords 0) (block ((vAll (wide 0xEE 0xDD)).set 7 (wide 0x34 0x12)) (sAll 0xCC)) 0x1A070004 = some [0x40, 0x23] := by
  decide +kernel

theorem test_shli_faults :
    afterIssue record (block ((vAll (wide 0xEE 0xDD)).set 7 (wide 0x34 0x12)) (sAll 0xCC)) 0x1A070040 = some (0x21, 0x1A070040, 0) := by
  decide +kernel

theorem test_shri_in_place :
    afterIssue (vWords 2) (block ((vAll (wide 0xEE 0xDD)).set 2 (wide 0x34 0x12)) (sAll 0xCC)) 0x1B220001 = some [0x1A, 0x09] := by
  decide +kernel

theorem test_shri_zeros_enter :
    afterIssue (vWords 0) (block ((vAll (wide 0xEE 0xDD)).set 1 (wide 0xFF 0xFF)) (sAll 0xCC)) 0x1B010007 = some [0xFF, 0x01] := by
  decide +kernel

theorem test_egcd_x :
    afterIssue (sWord 0) (block (vAll (wide 0xEE 0xDD)) (((sAll 0xCC).set 2 0xF0).set 3 0x2E)) 0x20023100 = some 0xF7 := by
  decide +kernel

theorem test_egcd_y_in_place :
    afterIssue (sWord 3) (block (vAll (wide 0xEE 0xDD)) (((sAll 0xCC).set 2 0xF0).set 3 0x2E)) 0x20223300 = some 0x2F := by
  decide +kernel

/-- The second clause is the source's vector of `95_test_vectors.md` section 1, `BITS = 64`. -/
theorem test_minv :
    afterIssue (sWord 7) (block (vAll (wide 0xEE 0xDD)) ((sAll 0xCC).set 6 0x07)) 0x21760000 = some 0x49 ∧
    minv (0x3a79c43646842eff : Word 64) = 0x3857b70d56252f01 := by
  decide +kernel

theorem test_minv_faults_on_zero :
    afterIssue record (block (vAll (wide 0xEE 0xDD)) ((sAll 0xCC).set 6 0x00)) 0x21760000 = some (0x31, 0x21760000, 0) := by
  decide +kernel

theorem test_mmul :
    afterIssue (vWords 0) (block ((((vAll (wide 0xEE 0xDD)).set 1 (wide 0x34 0x12)).set 2 (wide 0x78 0x56)).set 3 (wide 0xA3 0xC5)) ((sAll 0xCC).set 4 0xF5)) 0x28012340 = some [0x31, 0x97] ∧
    afterIssue (vWords 0) (block ((((vAll (wide 0xEE 0xDD)).set 1 (wide 0xFF 0xFF)).set 2 (wide 0xFF 0xFF)).set 3 (wide 0x03 0x00)) ((sAll 0xCC).set 4 0x55)) 0x28012340 = some [0xFC, 0xFF] := by
  decide +kernel

/-- Even modulus and wrong `mc` together: `EVEN_MODULUS` first (R160). Then an odd one with a wrong `mc`. -/
theorem test_mmul_faults :
    afterIssue record (block ((vAll (wide 0xEE 0xDD)).set 3 (wide 0xA2 0xC5)) ((sAll 0xCC).set 4 0x01)) 0x28012340 = some (0x31, 0x28012340, 0) ∧
    afterIssue record (block ((vAll (wide 0xEE 0xDD)).set 3 (wide 0xA3 0xC5)) ((sAll 0xCC).set 4 0xF4)) 0x28012340 = some (0x41, 0x28012340, 0) := by
  decide +kernel

theorem test_mconv_needs_the_carry :
    afterIssue (vWords 5) (block ((vAll (wide 0xEE 0xDD)).set 3 (wide 0x01 0x80)) (sAll 0xCC)) 0x29500300 = some [0x04, 0x00] := by
  decide +kernel

theorem test_mconv :
    afterIssue (vWords 5) (block ((vAll (wide 0xEE 0xDD)).set 3 (wide 0xA3 0xC5)) (sAll 0xCC)) 0x29500300 = some [0x95, 0x20] := by
  decide +kernel

theorem test_powm :
    afterIssue (vWords 0) (block ((((vAll (wide 0xEE 0xDD)).set 1 (wide 0x34 0x12)).set 2 (wide 0x05 0x00)).set 3 (wide 0xA3 0xC5)) (sAll 0xCC)) 0x30012300 = some [0xB0, 0x3B] := by
  decide +kernel

theorem test_powm_top_exponent_bit :
    afterIssue (vWords 0) (block ((((vAll (wide 0xEE 0xDD)).set 1 (wide 0x03 0x00)).set 2 (wide 0x00 0x80)).set 3 (wide 0xA3 0xC5)) (sAll 0xCC)) 0x30012300 = some [0x5C, 0x22] := by
  decide +kernel

/-- R151 cause 1, R153: an undecodable word, and EGCD with equal destinations (R107). -/
theorem test_illegal_command :
    afterIssue record (block (vAll (wide 1 2)) (sAll 3)) 0x11923000 = some (0x11, 0x11923000, 0) ∧
    afterIssue record (block (vAll (wide 1 2)) (sAll 3)) 0x20023000 = some (0x11, 0x20023000, 0) := by
  decide +kernel

/-- R21: a completing command is counted. -/
theorem test_ccnt : afterIssue record (block (vAll (wide 1 2)) (sAll 3)) 0x01300000 = some (0, 0, 1) := by
  decide +kernel

/-- `45_montgomery.md` R120, last row of its table: the word-level datapath of R118. -/
theorem test_datapath : datapathMmul (wide 0xFF 0xFF) (wide 0xFF 0xFF) (wide 0xA3 0xC5) 0xF5 = wide 0x28 0x8C := by
  decide +kernel

/-! ## Host port (R32 to R36, R155) -/

/-- A clear block that has these operations to perform. -/
def clear (ops : List (PortOp 8)) : State := { block (vAll (wide 0x34 0x12)) (sAll 0x56) with port := ops }

/-- A faulted block (SHLI by 64, R59) that has these operations to perform. -/
def stuck (ops : List (PortOp 8)) : State := { clear ops with fstat := 0x21, fcmd := 0x1A070040 }

/-- What `f` reads after one step. -/
def afterStep {α : Type} (f : State → α) (s : State) : Option α :=
  match step s with
  | .next t => some (f t)
  | _ => none

/-- The number returned to the host. -/
def answerNat (s : State) : Option Nat :=
  match s.answer with
  | .none => none
  | .word x => some x.toNat
  | .csr x => some x.toNat

theorem test_wrv_one_word : afterStep (vWords 7) (clear [.wrv 7 1 0xAB]) = some [0x34, 0xAB] := by decide +kernel

theorem test_wrv_refused : afterStep (vWords 7) (stuck [.wrv 7 1 0xAB]) = some [0x34, 0x12] := by decide +kernel

theorem test_rdv : afterStep answerNat (stuck [.rdv 0 1]) = some (some 0x12) := by decide +kernel

theorem test_rdv_out_of_range :
    afterStep (fun t => (answerNat t, record t)) (clear [.rdv 0 2]) = some (some 0, 0x51, 0, 0) := by decide +kernel

theorem test_rds_out_of_range_while_faulted :
    afterStep (fun t => (answerNat t, record t)) (stuck [.rds 8]) = some (some 0, 0x21, 0x1A070040, 0) := by
  decide +kernel

theorem test_wrs : afterStep (sWord 7) (clear [.wrs 7 0xAB]) = some 0xAB := by decide +kernel

theorem test_rdc_fcmd : afterStep answerNat (stuck [.rdc 2]) = some (some 0x1A070040) := by decide +kernel

theorem test_wrc_faults : afterStep record (clear [.wrc 3 7]) = some (0x51, 0, 0) := by decide +kernel

theorem test_reset : afterStep record (stuck [.reset]) = some (0, 0, 0) := by decide +kernel

theorem test_issue_refused : afterStep (vWords 3) (stuck [.issue 0x01300000]) = some [0x34, 0x12] := by decide +kernel

/-! ## Host software (R136 to R141) -/

theorem test_from_hex : fromHex ['1', 'a', '3', 'F'] = some (wide 0x3F 0x1A) := by decide +kernel

/-! ## Witnesses: a concrete state and operands that meet all hypotheses of each statement, clause by clause -/

theorem witness_DecodeOfEncodeIsTheCommand :
    (Instr.egcd 7 0 7 7).wellFormed = true ∧ (Instr.shli 0 7 255).wellFormed = true := by decide

theorem witness_EncodeOfDecodeIsTheWord :
    decode 0x20707700 = .error .equalDestinations ∧ decode 0x20777000 = .ok (.egcd 7 0 7 7) := by decide

theorem witness_LegalWordsAreTheRowsOfTheTable :
    decode 0x1A0700FF = .ok (.shli 0 7 255) ∧ (decode 0x1A8700FF).toOption = none := by decide

theorem witness_StepRunsTheIssuedCommand :
    decode 0x01300000 = .ok (.czero 3) ∧ (clear [.issue 0x01300000]).port = [.issue 0x01300000] := by decide

theorem witness_IllegalCommandWordFaults :
    (clear [.issue 0]).csrsLegal = true ∧ (clear [.issue 0]).faulted = false ∧
    (clear [.issue 0]).port = [.issue 0] ∧ decode 0 = .error .unassignedOpcode := by decide +kernel

theorem stuck_faulted (ops : List (PortOp 8)) : (stuck ops).faulted = true := by
  show (statusF 0x21 == 1) = true
  decide

theorem clear_not_faulted (ops : List (PortOp 8)) : (clear ops).faulted = false := by
  show (statusF 0 == 1) = false
  decide

theorem clear_legal (ops : List (PortOp 8)) : (clear ops).csrsLegal = true := by
  rw [State.csrsLegal, faultStateLegal, clear_not_faulted]
  show (flagsLegal 0 && ((0 : BitVec 32) == 0 && (0 : BitVec 32) == 0)) = true
  decide

theorem witness_FaultedBlockOnlyAnswersReads :
    (∀ op : PortOp 8, (stuck [op]).faulted = true ∧ (stuck [op]).port = op :: []) ∧ 1 < small.words ∧
    ¬ ((8 : Nat) < 8 ∧ 0 < small.words) ∧ ¬ ((0 : Nat) < 8 ∧ 2 < small.words) ∧ ¬ (8 : Nat) < 8 ∧ (4 : Nat) ≤ 4 := 
  ⟨fun _ => ⟨stuck_faulted _, rfl⟩, by decide +kernel⟩

theorem witness_OnlyResetLeavesTheFaultedState :
    ∃ t, (stuck [.reset]).faulted = true ∧ step (stuck [.reset]) = .next t ∧ t.faulted = false := 
  ⟨_, by decide +kernel, rfl, by decide +kernel⟩

theorem witness_ResetOperationClearsTheCsrs :
    (stuck [.reset, .rds 0]).port = .reset :: [.rds 0] := rfl

theorem witness_EveryStepKeepsTheCsrsLegal :
    ∃ t, (clear [.issue 0]).csrsLegal = true ∧ step (clear [.issue 0]) = .next t := ⟨_, by decide +kernel, rfl⟩

theorem witness_NoStepChangesTheParameters :
    ∃ t, step (clear [.issue 0]) = .next t := ⟨_, rfl⟩

theorem witness_IdleBlockKeepsItsState :
    (clear []).port = [] := rfl

theorem witness_CompletedCommandsAreCounted :
    (∃ t, (clear []).faulted = false ∧ exec (.czero 0) (clear []) = .next t ∧ t.faulted = false) ∧
    (∃ t, (clear []).faulted = false ∧ exec (.shri 0 0 8) (clear []) = .next t ∧ t.faulted = true) ∧
    (∃ t, (clear [.rds 0]).port = [.rds 0] ∧ PortOp.rds 0 ≠ (.reset : PortOp 8) ∧ step (clear [.rds 0]) = .next t) ∧
    (∃ t, (stuck [.issue 0]).port = [.issue 0] ∧ (stuck [.issue 0]).faulted = true ∧ step (stuck [.issue 0]) = .next t) := 
  ⟨⟨_, by decide +kernel, rfl, by decide +kernel⟩, ⟨_, by decide +kernel, rfl, by decide +kernel⟩,
    ⟨_, rfl, by decide, rfl⟩, ⟨_, rfl, by decide +kernel, rfl⟩⟩

theorem witness_EveryCommandWritesOnlyItsDestinations :
    (Instr.add 1 2 3).vDestination ≠ some 2 ∧ (2 : SReg) ∉ (Instr.egcd 0 1 2 3).sDestinations ∧
    (Instr.minv 0 1).sDestinations ≠ [] ∧ (Instr.add 1 2 3).vDestination ≠ none := by decide

theorem witness_EachFlagFieldHasOneWriter :
    ∃ t, exec (.add 1 2 3) (clear []) = .next t ∧ (Instr.add 1 2 3).opcode ≠ .isz ∧ (Instr.add 1 2 3).opcode ≠ .lowb ∧
    (Instr.add 1 2 3).opcode ≠ .equ ∧ (Instr.add 1 2 3).opcode ≠ .cmp := ⟨_, rfl, by decide, by decide, by decide, by decide⟩

theorem witness_FaultingCommandChangesOnlyTheFaultRecord :
    ∃ t, (clear []).faulted = false ∧ exec (.shri 0 0 8) (clear []) = .next t ∧ t.faulted = true := 
  ⟨_, by decide +kernel, rfl, by decide +kernel⟩

/-- All hypotheses of the statement on which commands fault, for one command. -/
def raises (i : Instr) (s : State) : Bool :=
  i.wellFormed && s.csrsLegal && !s.faulted &&
    match exec i s with
    | .next t => t.faulted
    | _ => false

theorem witness_CommandsRaiseOnlyTheirCauses :
    raises (.shri 0 0 8) (clear []) = true ∧ raises (.minv 0 0) (clear []) = true ∧
    raises (.mmul 0 1 2 3 4) (block (vAll (wide 3 0)) (sAll 0x54)) = true := by decide +kernel

theorem witness_ConstantCommandsWriteTheirConstant :
    (clear []).faulted = false := by decide +kernel

theorem witness_FromwWritesTheWordAndZeros :
    (clear []).faulted = false := by decide +kernel

theorem witness_IszWritesTheZeroFlagOnly :
    (clear []).faulted = false := by decide +kernel

theorem witness_LowbWritesTheParityFlagOnly :
    (clear []).faulted = false := by decide +kernel

theorem witness_EquWritesTheEqualFlagOnly :
    (clear []).faulted = false := by decide +kernel

theorem witness_CmpWritesTheOrderOfTheIntegers :
    (clear []).faulted = false := by decide +kernel

theorem witness_EquAgreesWithCmp :
    (clear []).faulted = false := by decide +kernel

theorem witness_AddwWritesTheSumModR :
    (clear []).faulted = false := by decide +kernel

theorem witness_AddWritesTheSumModR :
    (clear []).faulted = false := by decide +kernel

theorem witness_SubWritesTheDifferenceModR :
    (clear []).faulted = false := by decide +kernel

theorem witness_SubUndoesAddAndAddCommutes :
    (clear []).faulted = false ∧ (1 : VReg) ≠ 3 := by decide +kernel

theorem witness_ShlShiftsLeftOrFaults :
    (block (vAll (wide 1 2)) (sAll 7)).faulted = false ∧
    ((block (vAll (wide 1 2)) (sAll 7)).readS 2).toNat < small.bits ∧
    (block (vAll (wide 1 2)) (sAll 8)).faulted = false ∧ (block (vAll (wide 1 2)) (sAll 8)).csrsLegal = true ∧
    small.bits ≤ ((block (vAll (wide 1 2)) (sAll 8)).readS 2).toNat := by decide +kernel

theorem witness_ShliShiftsLeftOrFaults :
    (clear []).faulted = false ∧ (7 : BitVec 8).toNat < small.bits ∧ (clear []).csrsLegal = true ∧
    small.bits ≤ (8 : BitVec 8).toNat := by decide +kernel

theorem witness_ShrShiftsRightOrFaults :
    (block (vAll (wide 1 2)) (sAll 7)).faulted = false ∧
    ((block (vAll (wide 1 2)) (sAll 7)).readS 2).toNat < small.bits ∧
    (block (vAll (wide 1 2)) (sAll 8)).faulted = false ∧ (block (vAll (wide 1 2)) (sAll 8)).csrsLegal = true ∧
    small.bits ≤ ((block (vAll (wide 1 2)) (sAll 8)).readS 2).toNat := by decide +kernel

theorem witness_ShriShiftsRightOrFaults :
    (clear []).faulted = false ∧ (7 : BitVec 8).toNat < small.bits ∧ (clear []).csrsLegal = true ∧
    small.bits ≤ (8 : BitVec 8).toNat := by decide +kernel

theorem witness_ShiftRoundTripsAreLossy :
    0 < 1 ∧ 1 < 8 ∧ 0 < 7 ∧ 7 < 8 := by decide

theorem witness_EgcdWritesThePairOfTheRecursion :
    (clear []).faulted = false ∧ (0 : SReg) ≠ 1 ∧ (∀ b : Word 8, egcd 0 b = (0, 1)) ∧
    (∀ a b : Word 8, a ≠ 0 → egcd a b = ((egcd (b % a) a).2 - b / a * (egcd (b % a) a).1, (egcd (b % a) a).1)) := 
  ⟨by decide +kernel, by decide, egcd_zero,
    fun _ b ha => egcd_rec (fun h => ha (BitVec.eq_of_toNat_eq (by simpa using h))) b⟩

theorem witness_EgcdWithEqualDestinationsIsIllegal :
    (clear [.issue 0x20023000]).csrsLegal = true ∧ (clear [.issue 0x20023000]).faulted = false ∧
    bitField 0x20023000 31 24 = 0x20 ∧ bitField 0x20023000 22 20 = bitField 0x20023000 10 8 ∧
    (clear [.issue 0x20023000]).port = [.issue 0x20023000] := by decide +kernel

theorem witness_EgcdResultsAreBezoutCoefficients :
    (clear []).faulted = false ∧ (7 : SReg) ≠ 0 := by decide +kernel

theorem witness_EgcdCornerCases :
    (1 : Word 8) ≠ 0 ∧ (255 : Word 8) ≠ 0 := by decide

theorem witness_MinvWritesTheNegatedInverseOrFaults :
    (block (vAll (wide 1 2)) (sAll 1)).faulted = false ∧
    ((block (vAll (wide 1 2)) (sAll 1)).readS 6).toNat % 2 = 1 ∧ (block (vAll (wide 1 2)) (sAll 0)).faulted = false ∧
    ((block (vAll (wide 1 2)) (sAll 0)).readS 6).toNat % 2 = 0 ∧ (block (vAll (wide 1 2)) (sAll 0)).csrsLegal = true := by decide +kernel

theorem witness_MinvIsABijectionOnOddWords :
    (1 : Word 8).toNat % 2 = 1 ∧ (255 : Word 8).toNat % 2 = 1 := by decide

/-- MMUL's operands `n = v3`, `mc = s4`. -/
def modulus (n0 mc : Word 8) : State := block (vAll (wide n0 0xC5)) (sAll mc)

theorem witness_MmulWritesTheMontgomeryProductOrFaults :
    ((modulus 0 0xF5).faulted = false ∧ (((modulus 0 0xF5).readV 3).word 0).toNat % 2 = 0 ∧ (modulus 0 0xF5).csrsLegal = true) ∧
    ((modulus 0xA3 0xF4).faulted = false ∧ (((modulus 0xA3 0xF4).readV 3).word 0).toNat % 2 = 1 ∧
      ((modulus 0xA3 0xF4).readS 4 * ((modulus 0xA3 0xF4).readV 3).word 0).toNat ≠ small.base - 1 ∧
      (modulus 0xA3 0xF4).csrsLegal = true) ∧
    ((modulus 0xA3 0xF5).faulted = false ∧ (((modulus 0xA3 0xF5).readV 3).word 0).toNat % 2 = 1 ∧
      ((modulus 0xA3 0xF5).readS 4 * ((modulus 0xA3 0xF5).readV 3).word 0).toNat = small.base - 1) := by decide +kernel

/-- `a = 0x1234` below `n = 0xC5A3` in `v1` and `b = n` in `v2`: the operands at which R119 promises a reduced result. -/
def residue : State := block ((vAll (wide 0xA3 0xC5)).set 1 (wide 0x34 0x12)) (sAll 0xF5)

/-- The inner clause of `MmulWritesTheMontgomeryProductOrFaults` (`a < n` or `b < n`); `modulus 0xA3 0xF5` meets neither. -/
theorem witness_MmulReducesWhenAnOperandIsBelowTheModulus :
    residue.faulted = false ∧ ((residue.readV 3).word 0).toNat % 2 = 1 ∧
    (residue.readS 4 * (residue.readV 3).word 0).toNat = small.base - 1 ∧
    (residue.readV 1).value < (residue.readV 3).value ∧ ¬ (residue.readV 2).value < (residue.readV 3).value := by decide +kernel

theorem witness_WordLevelDatapathComputesTheProduct :
    0 < 8 ∧ ((0xF5 : Word 8) * (wide 0xA3 0xC5).word 0).toNat = 2 ^ 8 - 1 := by decide +kernel

theorem witness_MontgomeryIdentityAndConversions :
    (wide 0xA3 0xC5).value % 2 = 1 ∧ ((0xF5 : Word 8) * (wide 0xA3 0xC5).word 0).toNat = small.base - 1 ∧
    (wide 0xA2 0xC5).value < (wide 0xA3 0xC5).value := by decide +kernel

theorem witness_MconvWritesRSquaredModNOrFaults :
    (modulus 1 0).faulted = false ∧ (((modulus 1 0).readV 3).word 0).toNat % 2 = 1 ∧
    (modulus 0 0).faulted = false ∧ (((modulus 0 0).readV 3).word 0).toNat % 2 = 0 ∧ (modulus 0 0).csrsLegal = true := by decide +kernel

theorem witness_PowmWritesThePowerModNOrFaults :
    (modulus 1 0).faulted = false ∧ (((modulus 1 0).readV 3).word 0).toNat % 2 = 1 ∧
    (modulus 0 0).faulted = false ∧ (((modulus 0 0).readV 3).word 0).toNat % 2 = 0 ∧ (modulus 0 0).csrsLegal = true := by decide +kernel

theorem witness_PowmByTwoIsASquareByTwoMmuls :
    (wide 0xA3 0xC5).value % 2 = 1 ∧ ((0xF5 : Word 8) * (wide 0xA3 0xC5).word 0).toNat = small.base - 1 ∧
    (wide 0xA2 0xC5).value < (wide 0xA3 0xC5).value ∧ (wide 2 0).value = 2 := by decide +kernel

theorem witness_WrvAndRdvReachOneWord :
    1 < small.words ∧ (clear [.wrv 7 1 0xAB]).faulted = false ∧ (clear [.wrv 7 1 0xAB]).port = [.wrv 7 1 0xAB] ∧
    (stuck [.rdv 7 1]).port = [.rdv 7 1] := by decide +kernel

theorem witness_WrsAndRdsReachOneRegister :
    (clear [.wrs 7 0xAB]).faulted = false ∧ (clear [.wrs 7 0xAB]).port = [.wrs 7 0xAB] ∧
    (stuck [.rds 7]).port = [.rds 7] := by decide +kernel

theorem witness_RdcReturnsTheCsr :
    (stuck [.rdc 0]).port = [.rdc 0] ∧ (stuck [.rdc 1]).port = [.rdc 1] ∧ (stuck [.rdc 2]).port = [.rdc 2] ∧
    (stuck [.rdc 3]).port = [.rdc 3] := by decide +kernel

theorem witness_PortAccessOutOfRangeFaults :
    (∀ op : PortOp 8, (clear [op]).csrsLegal = true ∧ (clear [op]).faulted = false ∧ (clear [op]).port = op :: []) ∧
    ¬ ((8 : Nat) < 8 ∧ 0 < small.words) ∧ ¬ ((0 : Nat) < 8 ∧ 2 < small.words) ∧ ¬ (8 : Nat) < 8 ∧ ¬ (4 : Nat) < 4 := 
  ⟨fun _ => ⟨clear_legal _, clear_not_faulted _, rfl⟩, by decide +kernel⟩

theorem witness_WritingEveryWordLoadsTheValue :
    (clear [.wrv 7 0 0xCD, .wrv 7 1 0xAB]).faulted = false ∧
    (clear [.wrv 7 0 0xCD, .wrv 7 1 0xAB]).port =
      (List.range small.words).map fun j => PortOp.wrv 7 j ((wide 0xCD 0xAB).word j) := ⟨clear_not_faulted _, rfl⟩

theorem witness_WritesAreIdempotent :
    ∃ r d, PortOp.wrs r d = (.wrs 8 1 : PortOp 8) := ⟨8, 1, rfl⟩

end Sys2Proof.Tests
end

section
/-!
What a step does to the parameters `BITS` and `W` (R7, R23): one lemma per shared operation, then per kind of port
operation, then the step.
-/

namespace Sys2Proof.Machine

@[simp] theorem raiseFault_params (c : Cause) (word : BitVec 32) (s : State) :
    (raiseFault c word s).params = s.params := by
  cases hf : s.faulted
  · rw [raiseFault_of_not_faulted hf]
  · rw [raiseFault_of_faulted hf]

theorem writeUnlessFaulted_params {s written : State} (h : written.params = s.params) :
    (writeUnlessFaulted s written).params = s.params := by
  rw [writeUnlessFaulted]
  split
  · rfl
  · exact h

/-- A command leaves the parameters as they are on each of its outcomes: refused, faulted, completed. -/
theorem exec_params {i : Instr} {s t : State} (h : exec i s = .next t) : t.params = s.params := by
  obtain ⟨-, rfl⟩ | ⟨-, c, rfl, -⟩ | ⟨-, v', s', flags', rfl, -⟩ := exec_next h
  · rfl
  · exact raiseFault_params c (encode i) s
  · rfl

@[simp] theorem portWrv_params (r j : Nat) (s : State) (data : Word s.params.bits) :
    (portWrv r j s data).params = s.params := by
  rw [portWrv]
  split_ifs
  · exact writeUnlessFaulted_params (writeV_params _ _ _)
  all_goals exact raiseFault_params _ _ _

@[simp] theorem portRdv_params (r j : Nat) (s : State) : (portRdv r j s).params = s.params := by
  rw [portRdv]
  split_ifs
  · rfl
  all_goals exact raiseFault_params _ _ _

@[simp] theorem portWrs_params (r : Nat) (s : State) (data : Word s.params.bits) :
    (portWrs r s data).params = s.params := by
  rw [portWrs]
  split_ifs
  · exact writeUnlessFaulted_params (writeS_params _ _ _)
  · exact raiseFault_params _ _ _

@[simp] theorem portRds_params (r : Nat) (s : State) : (portRds r s).params = s.params := by
  rw [portRds]
  split_ifs
  · rfl
  · exact raiseFault_params _ _ _

@[simp] theorem portRdc_params (k : Nat) (s : State) : (portRdc k s).params = s.params := by
  rw [portRdc]
  split
  · rfl
  · exact raiseFault_params _ _ _

@[simp] theorem portWrc_params (s : State) : (portWrc s).params = s.params :=
  raiseFault_params _ _ _

theorem portIssue_params {cmd : BitVec 32} {s t : State} (h : portIssue cmd s = .next t) :
    t.params = s.params := by
  rw [portIssue] at h
  split at h
  · exact exec_params h
  · cases h
    exact raiseFault_params _ _ _

/-- No port operation changes the parameters, `RESET` included (R23). -/
theorem portStep_params {s t : State} {op : PortOp s.params.bits} (h : portStep s op = .next t) :
    t.params = s.params := by
  cases op with
  | wrv r j data => cases h; exact portWrv_params r j s data
  | rdv r j => cases h; exact portRdv_params r j s
  | wrs r data => cases h; exact portWrs_params r s data
  | rds r => cases h; exact portRds_params r s
  | rdc k => cases h; exact portRdc_params k s
  | wrc k data => cases h; exact portWrc_params s
  | issue cmd => exact portIssue_params h
  | reset => cases h; exact resetBlock_params s

/-- Idle (R162), or one port operation on the state it was taken from. -/
theorem step_params {s t : State} (h : step s = .next t) : t.params = s.params := by
  cases hport : s.port with
  | nil =>
    rw [step, hport] at h
    cases h
    rfl
  | cons op rest =>
    rw [step_cons hport] at h
    exact (portStep_params h).trans (takeOp_params s rest)

/-- Settles O13: each kind of step keeps the parameters (`step_params`). -/
theorem noStepChangesTheParameters : Obligations.NoStepChangesTheParameters :=
  fun _ _ => step_params

end Sys2Proof.Machine
end

section
/-!
The converse round trip of the command word (R51, R52, R55): a word that passes the decoder's checks is its fields
packed again, and each opcode's command encodes to exactly those fields.
-/

namespace Sys2Proof

@[simp] theorem regOf_zero : regOf 0 = 0 := rfl

theorem bitField_lt (c : BitVec 32) (hi lo : Nat) : bitField c hi lo < 2 ^ (hi - lo + 1) :=
  Nat.mod_lt _ (Nat.two_pow_pos _)

/-- A register field is three bits wide, so reading it as an index loses nothing. -/
theorem val_regOf_bitField (c : BitVec 32) {hi lo : Nat} (h : hi - lo + 1 = 3) :
    (regOf (bitField c hi lo)).val = bitField c hi lo := by
  have hlt := bitField_lt c hi lo
  rw [h] at hlt
  exact Nat.mod_eq_of_lt hlt

/-- The fields and the zero bits of R51 partition the 32 bits. -/
theorem toNat_eq_sum_of_fields {c : BitVec 32} (h : mustBeZeroBitsClear c = true) :
    c.toNat = bitField c 31 24 * 2 ^ 24 + bitField c 22 20 * 2 ^ 20 + bitField c 18 16 * 2 ^ 16 +
      bitField c 14 12 * 2 ^ 12 + bitField c 10 8 * 2 ^ 8 + bitField c 7 0 := by
  have hc := c.isLt
  simp only [mustBeZeroBitsClear, Bool.and_eq_true, beq_iff_eq, bitField] at h ⊢
  omega

/-- Packing the fields of a word with clear must-be-zero bits gives the word back. -/
theorem packCommand_fields {c : BitVec 32} {o : Opcode} (ho : o.byte = bitField c 31 24)
    (h : mustBeZeroBitsClear c = true) :
    packCommand o (regOf (bitField c 22 20)) (regOf (bitField c 18 16)) (regOf (bitField c 14 12))
      (regOf (bitField c 10 8)) (bitField c 7 0) = c := by
  apply BitVec.eq_of_toNat_eq
  rw [toNat_packCommand _ _ _ _ _ (bitField_lt c 7 0), val_regOf_bitField c rfl, val_regOf_bitField c rfl,
    val_regOf_bitField c rfl, val_regOf_bitField c rfl, ho]
  exact (toNat_eq_sum_of_fields h).symm

/-- The immediate byte (R53) holds all of bits 7:0. -/
theorem toNat_immediate (c : BitVec 32) : (BitVec.ofNat 8 (bitField c 7 0)).toNat = bitField c 7 0 := by
  rw [BitVec.toNat_ofNat, bitField, Nat.mod_mod]

/-- MMUL's fifth register field is all of the low byte when the rest of that byte is 0 (R51, R52). -/
theorem regOf_re_mul {c : BitVec 32} (h7 : bitField c 7 7 = 0) (h3 : bitField c 3 0 = 0) :
    (regOf (bitField c 6 4)).val * 2 ^ 4 = bitField c 7 0 := by
  rw [val_regOf_bitField c rfl]
  simp only [bitField] at h7 h3 ⊢
  omega

/-- The command an opcode spells encodes to the word's own fields: those it does not use are 0 by the checks. -/
theorem encode_assemble {o : Opcode} {c : BitVec 32} (hu : unusedFieldsClear o c = true)
    (hl : lowByteAllowed o c = true) :
    encode (assemble o c) =
      packCommand o (regOf (bitField c 22 20)) (regOf (bitField c 18 16)) (regOf (bitField c 14 12))
        (regOf (bitField c 10 8)) (bitField c 7 0) := by
  cases o with
  | shli | shri =>
    simp only [unusedFieldsClear, Opcode.uses, Bool.true_or, Bool.false_or, Bool.true_and, Bool.and_eq_true,
      beq_iff_eq] at hu
    simp only [assemble, encode, hu, toNat_immediate, regOf_zero]
  | mmul =>
    simp only [lowByteAllowed, Bool.and_eq_true, beq_iff_eq] at hl
    simp only [assemble, encode, regOf_re_mul hl.1 hl.2]
  | _ =>
    simp only [unusedFieldsClear, Opcode.uses, lowByteAllowed, Bool.true_or, Bool.false_or, Bool.true_and,
      Bool.and_true, Bool.and_eq_true, beq_iff_eq] at hu hl
    simp only [assemble, encode, hu, hl, regOf_zero]

/-- The decoder's last check (R55) is the one restriction on commands (R107). -/
theorem wellFormed_assemble {o : Opcode} {c : BitVec 32}
    (h : ¬ (o = .egcd ∧ bitField c 22 20 = bitField c 10 8)) : (assemble o c).wellFormed = true := by
  cases o with
  | egcd =>
    have hne : bitField c 22 20 ≠ bitField c 10 8 := fun he => h ⟨rfl, he⟩
    simpa [assemble, Instr.wellFormed, Fin.ext_iff, val_regOf_bitField] using hne
  | _ => rfl

/-- Settles O2: the checks of R55 leave no bit that the command's own word does not carry. -/
theorem encodeOfDecodeIsTheWord : Obligations.EncodeOfDecodeIsTheWord := by
  intro c i h
  obtain ⟨o, ho, hz, hu, hl, he, rfl⟩ := decode_ok h
  exact ⟨wellFormed_assemble he, (encode_assemble hu hl).trans (packCommand_fields ho hz)⟩

end Sys2Proof
end

section
/-!
Which fields of `FLAGS` a command leaves (R16, R17): a field inside a kept range of bits is kept, so each of the four
field writes keeps the other three fields and bits 31:5.
-/

namespace Sys2Proof.Machine

/-- Registers that agree on bits 31:k agree on every field that lies in them. -/
theorem bitField_eq_of_high {x y : BitVec 32} {k hi lo : Nat} (h : bitField x 31 k = bitField y 31 k)
    (hk : k ≤ lo) (hlo : lo < 32) : bitField x hi lo = bitField y hi lo := by
  have hdiv : ∀ z : BitVec 32, bitField z 31 k = z.toNat / 2 ^ k := fun z => by
    rw [bitField]
    apply Nat.mod_eq_of_lt
    rw [Nat.div_lt_iff_lt_mul (Nat.two_pow_pos _), ← Nat.pow_add, show 31 - k + 1 + k = 32 by omega]
    exact z.isLt
  have hsplit : ∀ z : BitVec 32, z.toNat / 2 ^ lo = z.toNat / 2 ^ k / 2 ^ (lo - k) := fun z => by
    rw [Nat.div_div_eq_div_mul, ← Nat.pow_add, Nat.add_sub_cancel' hk]
  rw [hdiv, hdiv] at h
  rw [bitField, bitField, hsplit, hsplit, h]

/-- Registers that agree on bits k:0 agree on every field that lies in them. -/
theorem bitField_eq_of_low {x y : BitVec 32} {k hi lo : Nat} (h : bitField x k 0 = bitField y k 0)
    (hlo : lo ≤ hi) (hk : hi ≤ k) : bitField x hi lo = bitField y hi lo := by
  have hlow : ∀ z : BitVec 32, bitField z hi lo = bitField z k 0 / 2 ^ lo % 2 ^ (hi - lo + 1) := fun z => by
    rw [bitField, bitField, Nat.pow_zero, Nat.div_one,
      show 2 ^ (k - 0 + 1) = 2 ^ lo * 2 ^ (k + 1 - lo) by rw [← Nat.pow_add]; congr 1; omega,
      Nat.mod_mul_right_div_self, Nat.mod_mod_of_dvd _ (Nat.pow_dvd_pow 2 (by omega))]
  rw [hlow, hlow, h]

theorem setFlagZ_keeps (r : BitVec 32) (b : Bool) :
    flagL (setFlagZ r b) = flagL r ∧ flagE (setFlagZ r b) = flagE r ∧ flagOrd (setFlagZ r b) = flagOrd r ∧
      bitField (setFlagZ r b) 31 5 = bitField r 31 5 := by
  obtain ⟨-, hhigh⟩ := setFlagZ_fields r b
  refine ⟨?_, ?_, ?_, ?_⟩ <;> exact bitField_eq_of_high hhigh (by decide) (by decide)

theorem setFlagL_keeps (r : BitVec 32) (b : Bool) :
    flagZ (setFlagL r b) = flagZ r ∧ flagE (setFlagL r b) = flagE r ∧ flagOrd (setFlagL r b) = flagOrd r ∧
      bitField (setFlagL r b) 31 5 = bitField r 31 5 := by
  obtain ⟨-, hlow, hhigh⟩ := setFlagL_fields r b
  refine ⟨hlow, ?_, ?_, ?_⟩ <;> exact bitField_eq_of_high hhigh (by decide) (by decide)

theorem setFlagE_keeps (r : BitVec 32) (b : Bool) :
    flagZ (setFlagE r b) = flagZ r ∧ flagL (setFlagE r b) = flagL r ∧ flagOrd (setFlagE r b) = flagOrd r ∧
      bitField (setFlagE r b) 31 5 = bitField r 31 5 := by
  obtain ⟨-, hlow, hhigh⟩ := setFlagE_fields r b
  refine ⟨?_, ?_, ?_, ?_⟩
  · exact bitField_eq_of_low hlow (by decide) (by decide)
  · exact bitField_eq_of_low hlow (by decide) (by decide)
  · exact bitField_eq_of_high hhigh (by decide) (by decide)
  · exact bitField_eq_of_high hhigh (by decide) (by decide)

theorem setFlagOrd_keeps (r : BitVec 32) (o : Ordering) :
    flagZ (setFlagOrd r o) = flagZ r ∧ flagL (setFlagOrd r o) = flagL r ∧ flagE (setFlagOrd r o) = flagE r ∧
      bitField (setFlagOrd r o) 31 5 = bitField r 31 5 := by
  obtain ⟨-, hlow, hhigh⟩ := setFlagOrd_fields r o
  refine ⟨?_, ?_, ?_, hhigh⟩ <;> exact bitField_eq_of_low hlow (by decide) (by decide)

theorem flagsLegal_iff {r : BitVec 32} : flagsLegal r = true ↔ bitField r 31 5 = 0 ∧ flagOrd r ≠ 3 := by
  simp [flagsLegal]

theorem ordCode_ne_three (o : Ordering) : ordCode o ≠ 3 := by cases o <;> decide

@[simp] theorem raiseFault_flags (c : Cause) (word : BitVec 32) (s : State) :
    (raiseFault c word s).flags = s.flags := by
  rw [raiseFault]
  split <;> rfl

@[simp] theorem raiseFault_ccnt (c : Cause) (word : BitVec 32) (s : State) :
    (raiseFault c word s).ccnt = s.ccnt := by
  rw [raiseFault]
  split <;> rfl

/-- A command without a check leaves the `FLAGS` of its effect. -/
theorem exec_flags_of_completes {i : Instr} {s t effect : State} (hrun : exec i s = runCommand i s none effect)
    (hf : s.faulted = false) (h : exec i s = .next t) : t.flags = effect.flags := by
  rw [hrun, runCommand_completes hf] at h
  cases h
  rfl

/-- What a command can do to `FLAGS`, said once: nothing, or the one field write of its own opcode (R17). -/
theorem exec_flags {i : Instr} {s t : State} (h : exec i s = .next t) :
    t.flags = s.flags ∨
    (i.opcode = .isz ∧ ∃ b, t.flags = setFlagZ s.flags b) ∨
    (i.opcode = .lowb ∧ ∃ b, t.flags = setFlagL s.flags b) ∨
    (i.opcode = .equ ∧ ∃ b, t.flags = setFlagE s.flags b) ∨
    (i.opcode = .cmp ∧ ∃ o, t.flags = setFlagOrd s.flags o) := by
  obtain ⟨hf, rfl⟩ | ⟨hf, c, rfl, -⟩ | ⟨hf, v', s', flags', rfl, -, -, hflags⟩ := exec_next h
  · exact .inl rfl
  · exact .inl (raiseFault_flags c _ s)
  · cases i with
    | isz ra => exact .inr (.inl ⟨rfl, _, exec_flags_of_completes rfl hf h⟩)
    | lowb ra => exact .inr (.inr (.inl ⟨rfl, _, exec_flags_of_completes rfl hf h⟩))
    | equ ra rb => exact .inr (.inr (.inr (.inl ⟨rfl, _, exec_flags_of_completes rfl hf h⟩)))
    | cmp ra rb => exact .inr (.inr (.inr (.inr ⟨rfl, _, exec_flags_of_completes rfl hf h⟩)))
    | _ => exact .inl (hflags (by simp [Instr.opcode]))

/-- Settles O18: of the four field writes only a command's own can have happened, and it keeps the other fields. -/
theorem eachFlagFieldHasOneWriter : Obligations.EachFlagFieldHasOneWriter := by
  intro i s t h
  obtain hkept | ⟨hop, b, hset⟩ | ⟨hop, b, hset⟩ | ⟨hop, b, hset⟩ | ⟨hop, o, hset⟩ := exec_flags h
  · simp [hkept]
  · obtain ⟨hL, hE, hOrd, hrest⟩ := setFlagZ_keeps s.flags b
    simp [hset, hop, hL, hE, hOrd, hrest]
  · obtain ⟨hZ, hE, hOrd, hrest⟩ := setFlagL_keeps s.flags b
    simp [hset, hop, hZ, hE, hOrd, hrest]
  · obtain ⟨hZ, hL, hOrd, hrest⟩ := setFlagE_keeps s.flags b
    simp [hset, hop, hZ, hL, hOrd, hrest]
  · obtain ⟨hZ, hL, hE, hrest⟩ := setFlagOrd_keeps s.flags o
    simp [hset, hop, hZ, hL, hE, hrest]

/-- A command keeps `FLAGS` legal (R16): bits 31:5 have no writer, and CMP writes one of three codes. -/
theorem exec_flagsLegal {i : Instr} {s t : State} (hs : flagsLegal s.flags = true) (h : exec i s = .next t) :
    flagsLegal t.flags = true := by
  obtain ⟨-, -, -, hord, hrest⟩ := eachFlagFieldHasOneWriter i s t h
  rw [flagsLegal_iff] at hs ⊢
  refine ⟨hrest.trans hs.1, ?_⟩
  obtain hkept | ⟨hop, -⟩ | ⟨hop, -⟩ | ⟨hop, -⟩ | ⟨-, o, hset⟩ := exec_flags h
  · rw [hkept]
    exact hs.2
  · exact (hord (by simp [hop])).trans_ne hs.2
  · exact (hord (by simp [hop])).trans_ne hs.2
  · exact (hord (by simp [hop])).trans_ne hs.2
  · rw [hset, (setFlagOrd_fields s.flags o).1]
    exact ordCode_ne_three o

end Sys2Proof.Machine
end

section
/-!
What a host port operation does to the four CSRs (R15, R32 to R36): the operations other than `ISSUE` and `RESET`
leave them, or take the port fault.
-/

namespace Sys2Proof.Machine

/-- `t` holds the four CSRs of `s` (R15). -/
structure SameCsrs (s t : State) : Prop where
  flags : t.flags = s.flags
  fstat : t.fstat = s.fstat
  fcmd : t.fcmd = s.fcmd
  ccnt : t.ccnt = s.ccnt

/-- Whether the CSRs are legal depends on the CSRs only. -/
theorem SameCsrs.csrsLegal {s t : State} (h : SameCsrs s t) : t.csrsLegal = s.csrsLegal := by
  have hfaulted : t.faulted = s.faulted := by rw [State.faulted, State.faulted, h.fstat]
  rw [State.csrsLegal, State.csrsLegal, faultStateLegal, faultStateLegal, hfaulted, h.flags, h.fstat, h.fcmd]

theorem writeUnlessFaulted_sameCsrs {s written : State} (h : SameCsrs s written) :
    SameCsrs s (writeUnlessFaulted s written) := by
  rw [writeUnlessFaulted]
  split
  · exact ⟨rfl, rfl, rfl, rfl⟩
  · exact h

theorem portWrv_csrs (r j : Nat) (s : State) (data : Word s.params.bits) :
    SameCsrs s (portWrv r j s data) ∨ SameCsrs (raiseFault .portAccess 0 s) (portWrv r j s data) := by
  rw [portWrv]
  split_ifs
  · exact .inl (writeUnlessFaulted_sameCsrs ⟨rfl, rfl, rfl, rfl⟩)
  all_goals exact .inr ⟨rfl, rfl, rfl, rfl⟩

theorem portRdv_csrs (r j : Nat) (s : State) :
    SameCsrs s (portRdv r j s) ∨ SameCsrs (raiseFault .portAccess 0 s) (portRdv r j s) := by
  rw [portRdv]
  split_ifs
  · exact .inl ⟨rfl, rfl, rfl, rfl⟩
  all_goals exact .inr ⟨rfl, rfl, rfl, rfl⟩

theorem portWrs_csrs (r : Nat) (s : State) (data : Word s.params.bits) :
    SameCsrs s (portWrs r s data) ∨ SameCsrs (raiseFault .portAccess 0 s) (portWrs r s data) := by
  rw [portWrs]
  split_ifs
  · exact .inl (writeUnlessFaulted_sameCsrs ⟨rfl, rfl, rfl, rfl⟩)
  · exact .inr ⟨rfl, rfl, rfl, rfl⟩

theorem portRds_csrs (r : Nat) (s : State) :
    SameCsrs s (portRds r s) ∨ SameCsrs (raiseFault .portAccess 0 s) (portRds r s) := by
  rw [portRds]
  split_ifs
  · exact .inl ⟨rfl, rfl, rfl, rfl⟩
  · exact .inr ⟨rfl, rfl, rfl, rfl⟩

theorem portRdc_csrs (k : Nat) (s : State) :
    SameCsrs s (portRdc k s) ∨ SameCsrs (raiseFault .portAccess 0 s) (portRdc k s) := by
  rw [portRdc]
  split
  · exact .inl ⟨rfl, rfl, rfl, rfl⟩
  · exact .inr ⟨rfl, rfl, rfl, rfl⟩

/-- What a port operation does to the CSRs, said once: `ISSUE` and `RESET` apart, nothing or the port fault (R36). -/
theorem portStep_csrs {s t : State} {op : PortOp s.params.bits} (h : portStep s op = .next t) :
    (∃ cmd, op = .issue cmd ∧ portIssue cmd s = .next t) ∨ (op = .reset ∧ t = resetBlock s) ∨
    SameCsrs s t ∨ SameCsrs (raiseFault .portAccess 0 s) t := by
  cases op with
  | wrv r j data => cases h; exact .inr (.inr (portWrv_csrs r j s data))
  | rdv r j => cases h; exact .inr (.inr (portRdv_csrs r j s))
  | wrs r data => cases h; exact .inr (.inr (portWrs_csrs r s data))
  | rds r => cases h; exact .inr (.inr (portRds_csrs r s))
  | rdc k => cases h; exact .inr (.inr (portRdc_csrs k s))
  | wrc k data => cases h; exact .inr (.inr (.inr ⟨rfl, rfl, rfl, rfl⟩))
  | issue cmd => exact .inl ⟨cmd, rfl, h⟩
  | reset => cases h; exact .inr (.inl ⟨rfl, rfl⟩)

/-- An `ISSUE` in a faulted block is refused with no change, whatever the word (R37, R155). -/
theorem portIssue_of_faulted {s : State} (cmd : BitVec 32) (h : s.faulted = true) :
    portIssue cmd s = .next s := by
  rw [portIssue]
  split
  · exact exec_of_faulted h
  · rw [raiseFault_of_faulted h]

theorem takeOp_sameCsrs (s : State) (rest : List (PortOp s.params.bits)) : SameCsrs s (takeOp s rest) :=
  ⟨rfl, rfl, rfl, rfl⟩

end Sys2Proof.Machine
end

section
/-!
The invariant of the CSRs (R16, R18, R19, R151, R152): fault entry records a cause with a word that can raise it, so
every command and every port operation keeps it.
-/

namespace Sys2Proof.Machine

/-- The fields of `FSTAT` after the first fault (R18, R153). -/
theorem fstat_fields_of_cause (c : Cause) :
    bitField (BitVec.ofNat 32 (16 * c.code + 1)) 3 1 = 0 ∧ bitField (BitVec.ofNat 32 (16 * c.code + 1)) 31 8 = 0 ∧
      statusCause (BitVec.ofNat 32 (16 * c.code + 1)) = c.code := by
  cases c <;> decide

/-- Fault entry keeps the CSRs legal if the word recorded is one that can raise the cause (R19, R152). -/
theorem raiseFault_csrsLegal {s : State} {c : Cause} {word : BitVec 32} (hs : s.csrsLegal = true)
    (hrec : faultRecordLegal c.code word = true) : (raiseFault c word s).csrsLegal = true := by
  cases hf : s.faulted
  · obtain ⟨hflags, -, -⟩ := csrsLegal_not_faulted hs hf
    obtain ⟨hlow, hhigh, hcause⟩ := fstat_fields_of_cause c
    have hfault := faulted_raiseFault c word s
    rw [raiseFault_of_legal hs hf] at hfault ⊢
    simp [State.csrsLegal, faultStateLegal, hfault, hflags, hlow, hhigh, hcause, hrec]
  · rwa [raiseFault_of_faulted hf]

theorem faultRecordLegal_undecodable {c : BitVec 32} {e : DecodeError} (h : decode c = .error e) :
    faultRecordLegal Cause.illegalCommand.code c = true := by
  simp [faultRecordLegal, h, Except.toOption, Cause.code]

theorem faultRecordLegal_portAccess : faultRecordLegal Cause.portAccess.code 0 = true := by decide

/-- A cause of a command's own (R152) is one its word can raise. -/
theorem faultRecordLegal_of_command {c : Cause} {i : Instr} {word : BitVec 32} (hdec : decode word = .ok i)
    (hcause : (c = .shiftRange ∧ i.opcode ∈ [.shl, .shr, .shli, .shri]) ∨
      (c = .evenModulus ∧ i.opcode ∈ [.minv, .mmul, .mconv, .powm]) ∨ (c = .badMc ∧ i.opcode = .mmul)) :
    faultRecordLegal c.code word = true := by
  have hop : (decode word).toOption.map Instr.opcode = some i.opcode := by rw [hdec]; rfl
  obtain ⟨rfl, hmem⟩ | ⟨rfl, hmem⟩ | ⟨rfl, hmem⟩ := hcause
  all_goals simpa [faultRecordLegal, Cause.code, hop, or_assoc] using hmem

/-- A command that some word spells keeps the CSRs legal; that word is the one `FCMD` then holds (log 8). -/
theorem exec_csrsLegal {i : Instr} {word : BitVec 32} {s t : State} (hdec : decode word = .ok i)
    (hs : s.csrsLegal = true) (h : exec i s = .next t) : t.csrsLegal = true := by
  obtain ⟨hwf, hword⟩ := encodeOfDecodeIsTheWord word i hdec
  obtain ⟨-, rfl⟩ | ⟨-, c, rfl, hcause⟩ | ⟨hf, v', s', flags', rfl, -⟩ := exec_next h
  · exact hs
  · rw [hword]
    obtain ⟨-, hbad⟩ | hcause := hcause
    · simp [hwf] at hbad
    · exact raiseFault_csrsLegal hs (faultRecordLegal_of_command hdec hcause)
  · obtain ⟨hflags, hfstat, hfcmd⟩ := csrsLegal_not_faulted hs hf
    have hflags' : flagsLegal flags' = true := exec_flagsLegal hflags h
    simp [State.csrsLegal, faultStateLegal, State.faulted, statusF, bitField, hflags', hfstat, hfcmd]

theorem portIssue_csrsLegal {cmd : BitVec 32} {s t : State} (hs : s.csrsLegal = true)
    (h : portIssue cmd s = .next t) : t.csrsLegal = true := by
  rw [portIssue] at h
  split at h
  · next i hdec => exact exec_csrsLegal hdec hs h
  · next e hdec =>
    cases h
    exact raiseFault_csrsLegal hs (faultRecordLegal_undecodable hdec)

theorem csrsLegal_of_csrs_zero {s : State} (hflags : s.flags = 0) (hfstat : s.fstat = 0) (hfcmd : s.fcmd = 0) :
    s.csrsLegal = true := by
  simp [State.csrsLegal, faultStateLegal, State.faulted, statusF, flagsLegal, flagOrd, bitField, hflags, hfstat, hfcmd]

theorem portStep_csrsLegal {s t : State} {op : PortOp s.params.bits} (hs : s.csrsLegal = true)
    (h : portStep s op = .next t) : t.csrsLegal = true := by
  obtain ⟨cmd, -, hissue⟩ | ⟨-, rfl⟩ | hsame | hfault := portStep_csrs h
  · exact portIssue_csrsLegal hs hissue
  · exact csrsLegal_of_csrs_zero (resetBlock_flags s) (resetBlock_fstat s) (resetBlock_fcmd s)
  · rw [hsame.csrsLegal]
    exact hs
  · rw [hfault.csrsLegal]
    exact raiseFault_csrsLegal hs faultRecordLegal_portAccess

/-- Settles O12: idle, or one port operation on the state it was taken from, which has the same CSRs. -/
theorem everyStepKeepsTheCsrsLegal : Obligations.EveryStepKeepsTheCsrsLegal := by
  intro s t hs h
  cases hport : s.port with
  | nil =>
    rw [step, hport] at h
    cases h
    exact hs
  | cons op rest =>
    rw [step_cons hport] at h
    exact portStep_csrsLegal ((takeOp_sameCsrs s rest).csrsLegal.trans hs) h

end Sys2Proof.Machine
end

section
/-!
The frames of a command (R14, R21, R52, R153, R154): what it counts, which registers it writes, what a fault leaves,
and that it reads neither `FLAGS` nor `CCNT`.
-/

namespace Sys2Proof.Machine

/-- `CCNT` after a command in a block that is not faulted (R21): the count of a completion, or what it was. -/
theorem exec_ccnt {i : Instr} {s t : State} (hf : s.faulted = false) (h : exec i s = .next t) :
    (t.faulted = false ∧ t.ccnt = s.ccnt + 1) ∨ (t.faulted = true ∧ t.ccnt = s.ccnt) := by
  obtain ⟨hf', -⟩ | ⟨-, c, rfl, -⟩ | ⟨-, v', s', flags', rfl, -⟩ := exec_next h
  · simp [hf] at hf'
  · exact .inr ⟨faulted_raiseFault c _ s, raiseFault_ccnt c _ s⟩
  · exact .inl ⟨hf, rfl⟩

/-- No port operation but `RESET` and a command that is executed writes `CCNT` (R21). -/
theorem portStep_ccnt {s t : State} {op : PortOp s.params.bits} (hissue : ∀ c, op = .issue c → s.faulted = true)
    (hreset : op ≠ .reset) (h : portStep s op = .next t) : t.ccnt = s.ccnt := by
  obtain ⟨cmd, hop, hcmd⟩ | ⟨hop, -⟩ | hsame | hfault := portStep_csrs h
  · rw [portIssue_of_faulted cmd (hissue cmd hop)] at hcmd
    cases hcmd
    rfl
  · exact absurd hop hreset
  · exact hsame.ccnt
  · exact hfault.ccnt.trans (raiseFault_ccnt _ _ s)

/-- Settles O16: `exec_ccnt` for a command that is executed, `portStep_ccnt` for every other operation. -/
theorem completedCommandsAreCounted : Obligations.CompletedCommandsAreCounted := by
  refine ⟨fun i s t hf h => ?_, fun s t op rest hport hissue hreset h => ?_⟩
  · obtain ⟨ht, hcount⟩ | ⟨ht, hcount⟩ := exec_ccnt hf h
    · simp [ht, hcount, BitVec.toNat_add]
    · simp [ht, hcount]
  · rw [step_cons hport] at h
    exact portStep_ccnt (s := takeOp s rest) hissue hreset h

/-- The four commands that write a flag have no destination register (R52). -/
theorem no_destination_of_flag_writer {i : Instr} (h : i.opcode ∈ [.isz, .lowb, .equ, .cmp]) :
    i.vDestination = none ∧ i.sDestinations = [] := by
  cases i with
  | isz _ | lowb _ | equ _ _ | cmp _ _ => exact ⟨rfl, rfl⟩
  | _ => exact absurd h (by simp [Instr.opcode])

/-- Settles O17: refused and faulted commands write no register, a completed one its destinations (`exec_next`). -/
theorem everyCommandWritesOnlyItsDestinations : Obligations.EveryCommandWritesOnlyItsDestinations := by
  intro i s
  obtain ⟨t, h⟩ := exec_answers_next i s
  rw [h]
  obtain ⟨-, rfl⟩ | ⟨hf, c, rfl, -⟩ | ⟨-, v', s', flags', rfl, hv, hs, hflags⟩ := exec_next h
  · exact ⟨_, _, _, _, _, _, rfl, fun _ _ => rfl, fun _ _ => rfl, fun _ => rfl⟩
  · rw [raiseFault_of_not_faulted hf]
    exact ⟨_, _, _, _, _, _, rfl, fun _ _ => rfl, fun _ _ => rfl, fun _ => rfl⟩
  · refine ⟨v', s', flags', _, _, _, rfl, hv, hs, fun hdest => hflags fun hmem => ?_⟩
    obtain ⟨hnoV, hnoS⟩ := no_destination_of_flag_writer hmem
    exact hdest.elim (fun hne => hne hnoV) (fun hne => hne hnoS)

/-- A command's check and its effect on the data registers are the same whatever `FLAGS` and `CCNT` hold (R17, R21);
its effect leaves the `CCNT` of the block it runs on, to be counted by `runCommand`. -/
theorem exec_of_other_flags_ccnt (i : Instr) (s : State) (flags₂ ccnt₂ : BitVec 32) :
    ∃ check v' s' flags' flags₂',
      exec i s = runCommand i s check { s with v := v', s := s', flags := flags' } ∧
      exec i { s with flags := flags₂, ccnt := ccnt₂ } =
        runCommand i { s with flags := flags₂, ccnt := ccnt₂ } check
          { s with v := v', s := s', flags := flags₂', ccnt := ccnt₂ } := by
  cases i with
  | shl | shr | shli | shri | egcd | minv | mmul | mconv | powm => exact ⟨_, _, _, _, _, rfl, rfl⟩
  | _ => exact ⟨none, _, _, _, _, rfl, rfl⟩

/-- A command whose check fails, as the record it leaves (R153). -/
theorem runCommand_records_fault {i : Instr} {s effect : State} {c : Cause} (h : s.faulted = false) :
    runCommand i s (some c) effect = .next { s with fstat := setFault s.fstat c, fcmd := encode i } := by
  rw [runCommand_faults h, raiseFault_of_not_faulted h]

/-- Settles O19: both runs have the same check and the same effect (`exec_of_other_flags_ccnt`), so they are refused,
fault or complete together. -/
theorem noCommandReadsFlagsOrCounter : Obligations.NoCommandReadsFlagsOrCounter := by
  intro i s flags₂ ccnt₂
  obtain ⟨check, v', s', flags', flags₂', hrun, hrun₂⟩ := exec_of_other_flags_ccnt i s flags₂ ccnt₂
  rw [hrun, hrun₂]
  cases hf : s.faulted with
  | true => exact ⟨s, flags₂, ccnt₂, runCommand_faulted hf, runCommand_faulted hf⟩
  | false =>
    cases check with
    | none => exact ⟨_, flags₂', ccnt₂ + 1, runCommand_completes hf, runCommand_completes hf⟩
    | some c =>
      exact ⟨{ s with fstat := setFault s.fstat c, fcmd := encode i }, flags₂, ccnt₂, runCommand_records_fault hf,
        runCommand_records_fault (s := { s with flags := flags₂, ccnt := ccnt₂ }) hf⟩

/-- Settles O20: a command that leaves the block faulted took the fault entry, with its own word. -/
theorem faultingCommandChangesOnlyTheFaultRecord : Obligations.FaultingCommandChangesOnlyTheFaultRecord := by
  intro i s t hf h ht
  obtain ⟨hf', -⟩ | ⟨-, c, rfl, -⟩ | ⟨-, v', s', flags', rfl, -⟩ := exec_next h
  · simp [hf] at hf'
  · rw [raiseFault_of_not_faulted hf]
  · exact absurd (hf.symm.trans ht) (by decide)

end Sys2Proof.Machine
end

section
/-!
The reset state, the `RESET` operation and the reads of the CSRs (R15, R24, R34, R170).
-/

namespace Sys2Proof.Machine

/-- The block after reset is not faulted, for every choice of parameters (R24). -/
theorem resetWith_not_faulted (p : Params) : (State.resetWith p).faulted = false := by
  simp [State.faulted, statusF, bitField, State.resetWith]

theorem resetWith_csrsLegal (p : Params) : (State.resetWith p).csrsLegal = true :=
  csrsLegal_of_csrs_zero rfl rfl rfl

/-- Settles O9: the step is `resetBlock` on the state with the operation taken. -/
theorem resetOperationClearsTheCsrs : Obligations.ResetOperationClearsTheCsrs :=
  fun _ _ hport => ⟨_, _, step_cons hport⟩

/-- Settles O10: the CSRs are 0 by the definition of the reset state, and `F` is a bit of `FSTAT`. -/
theorem resetStateHasTheCsrValuesOfTheSpec : Obligations.ResetStateHasTheCsrValuesOfTheSpec :=
  ⟨fun p => ⟨rfl, rfl, rfl, rfl, resetWith_not_faulted p⟩, rfl, rfl, rfl, rfl⟩

/-- Settles O11: `State.reset` is the reset state of the reference parameters. -/
theorem resetStateHasLegalCsrs : Obligations.ResetStateHasLegalCsrs :=
  ⟨resetWith_csrsLegal Params.reference, resetWith_csrsLegal⟩

/-- `RDC` of an existing CSR answers it (R34). -/
theorem portRdc_of_csr {s : State} {k : Nat} {x : BitVec 32} (h : s.csr k = some x) :
    portRdc k s = { s with answer := .csr x } := by
  rw [portRdc, h]

/-- One step of `RDC k`, in any block, faulted or not (R34, R155). -/
theorem step_rdc {s : State} {rest : List (PortOp s.params.bits)} {k : Nat} {x : BitVec 32}
    (hport : s.port = .rdc k :: rest) (h : s.csr k = some x) :
    step s = .next { s with port := rest, answer := .csr x } := by
  have hcsr : (takeOp s rest).csr k = some x := h
  calc step s = .next (portRdc k (takeOp s rest)) := step_cons hport
    _ = .next { s with port := rest, answer := .csr x } := by rw [portRdc_of_csr hcsr]; rfl

/-- Settles O53: `step_rdc` for each of the four CSR numbers of R15. -/
theorem rdcReturnsTheCsr : Obligations.RdcReturnsTheCsr :=
  fun _ _ => ⟨fun h => step_rdc h rfl, fun h => step_rdc h rfl, fun h => step_rdc h rfl, fun h => step_rdc h rfl⟩

end Sys2Proof.Machine
end

section
/-!
The host port (R31 to R36), said once per kind of operation: what an operation in range does, what the port fault of a
forbidden one leaves, and what a faulted block refuses. The steps of `20_memory.md` are read off these rules.
-/

namespace Sys2Proof.Machine

/-- What raises `PORT_ACCESS` (R36): an index out of range, or any write to a CSR. -/
def PortOp.forbidden (p : Params) : PortOp p.bits → Prop
  | .wrv r j _ => ¬ (r < 8 ∧ j < p.words)
  | .rdv r j => ¬ (r < 8 ∧ j < p.words)
  | .wrs r _ => ¬ r < 8
  | .rds r => ¬ r < 8
  | .rdc k => ¬ k < 4
  | .wrc _ _ => True
  | .issue _ => False
  | .reset => False

/-- The answer to a forbidden operation (R36): a read returns 0, a write nothing. -/
def PortOp.forbiddenAnswer {bits : Nat} : PortOp bits → PortAnswer bits
  | .rdv _ _ | .rds _ => .word 0
  | .rdc _ => .csr 0
  | _ => .none

/-- The operations that write a register, or would (R32, R33, R36). -/
def PortOp.isWrite {bits : Nat} : PortOp bits → Prop
  | .wrv _ _ _ | .wrs _ _ | .wrc _ _ => True
  | _ => False

/-- A write returns no value (R36). -/
theorem forbiddenAnswer_write {bits : Nat} {op : PortOp bits} (h : op.isWrite) : op.forbiddenAnswer = .none := by
  cases op with
  | wrv | wrs | wrc => rfl
  | rdv | rds | rdc | issue | reset => exact h.elim

theorem writeUnlessFaulted_of_faulted {s : State} (hf : s.faulted = true) (written : State) :
    writeUnlessFaulted s written = s := by
  rw [writeUnlessFaulted, if_pos hf]

theorem writeUnlessFaulted_of_not_faulted {s : State} (hf : s.faulted = false) (written : State) :
    writeUnlessFaulted s written = written := by
  simp [writeUnlessFaulted, hf]

theorem portWrv_in_range (r : VReg) {j : Nat} {s : State} (hj : j < s.params.words) (data : Word s.params.bits)
    (hf : s.faulted = false) : portWrv r.val j s data = s.writeV r ((s.readV r).setWord j data) := by
  rw [portWrv, dif_pos r.isLt, if_pos hj, writeUnlessFaulted_of_not_faulted hf]

theorem portWrv_forbidden {r j : Nat} {s : State} {data : Word s.params.bits}
    (h : (PortOp.wrv r j data).forbidden s.params) : portWrv r j s data = raiseFault .portAccess 0 s := by
  rw [portWrv]
  split_ifs with hr hj
  · exact absurd ⟨hr, hj⟩ h
  all_goals rfl

theorem portRdv_in_range (r : VReg) {j : Nat} {s : State} (hj : j < s.params.words) :
    portRdv r.val j s = { s with answer := .word ((s.readV r).word j) } := by
  rw [portRdv, dif_pos r.isLt, if_pos hj]

theorem portRdv_forbidden {r j : Nat} {s : State} (h : (PortOp.rdv r j).forbidden s.params) :
    portRdv r j s = { raiseFault .portAccess 0 s with answer := .word 0 } := by
  rw [portRdv]
  split_ifs with hr hj
  · exact absurd ⟨hr, hj⟩ h
  all_goals rfl

theorem portWrs_in_range (r : SReg) {s : State} (data : Word s.params.bits) (hf : s.faulted = false) :
    portWrs r.val s data = s.writeS r data := by
  rw [portWrs, dif_pos r.isLt, writeUnlessFaulted_of_not_faulted hf]

theorem portWrs_forbidden {r : Nat} {s : State} {data : Word s.params.bits}
    (h : (PortOp.wrs r data).forbidden s.params) : portWrs r s data = raiseFault .portAccess 0 s := by
  rw [portWrs, dif_neg h]

theorem portRds_in_range (r : SReg) (s : State) : portRds r.val s = { s with answer := .word (s.readS r) } := by
  rw [portRds, dif_pos r.isLt]

theorem portRds_forbidden {r : Nat} {s : State} (h : (PortOp.rds r).forbidden s.params) :
    portRds r s = { raiseFault .portAccess 0 s with answer := .word 0 } := by
  rw [portRds, dif_neg h]

/-- R15 numbers four CSRs. -/
theorem csr_eq_none {s : State} {k : Nat} (hk : ¬ k < 4) : s.csr k = none := by
  match k with
  | 0 | 1 | 2 | 3 => exact absurd (by decide) hk
  | _ + 4 => rfl

theorem portRdc_forbidden {k : Nat} {s : State} (h : (PortOp.rdc k).forbidden s.params) :
    portRdc k s = { raiseFault .portAccess 0 s with answer := .csr 0 } := by
  rw [portRdc, csr_eq_none h]

/-- Every write is refused while faulted, in range or not (R155). -/
theorem portStep_write_of_faulted {s : State} {op : PortOp s.params.bits} (hop : op.isWrite)
    (hf : s.faulted = true) : portStep s op = .next s := by
  have hfault : raiseFault .portAccess 0 s = s := raiseFault_of_faulted hf
  cases op with
  | wrv r j data =>
    simp only [portStep, portWrv]
    split_ifs
    · rw [writeUnlessFaulted_of_faulted hf]
    all_goals rw [hfault]
  | wrs r data =>
    simp only [portStep, portWrs]
    split_ifs
    · rw [writeUnlessFaulted_of_faulted hf]
    · rw [hfault]
  | wrc k data => exact congrArg _ hfault
  | rdv | rds | rdc | issue | reset => exact hop.elim

section
variable {s : State} {rest : List (PortOp s.params.bits)}

/-- One step of a write in a faulted block: the operation is taken and nothing else happens (R155). -/
theorem step_write_of_faulted {op : PortOp s.params.bits} (hport : s.port = op :: rest) (hop : op.isWrite)
    (hf : s.faulted = true) : step s = .next { s with port := rest, answer := .none } :=
  (step_cons hport).trans (portStep_write_of_faulted (s := takeOp s rest) hop hf)

/-- One step of a forbidden operation, for any record `fstat`, `fcmd` that the port fault leaves (R36, R153, R155). -/
theorem step_forbidden {op : PortOp s.params.bits} {fstat fcmd : BitVec 32} (hport : s.port = op :: rest)
    (hop : op.forbidden s.params)
    (hfault : raiseFault .portAccess 0 (takeOp s rest) = { takeOp s rest with fstat := fstat, fcmd := fcmd }) :
    step s = .next { s with port := rest, answer := op.forbiddenAnswer, fstat := fstat, fcmd := fcmd } := by
  rw [step_cons hport]
  cases op with
  | wrv r j data => exact congrArg _ ((portWrv_forbidden (s := takeOp s rest) hop).trans hfault)
  | wrs r data => exact congrArg _ ((portWrs_forbidden (s := takeOp s rest) hop).trans hfault)
  | wrc k data => exact congrArg _ hfault
  | rdv r j =>
    have hread := portRdv_forbidden (s := takeOp s rest) hop
    rw [hfault] at hread
    exact congrArg _ hread
  | rds r =>
    have hread := portRds_forbidden (s := takeOp s rest) hop
    rw [hfault] at hread
    exact congrArg _ hread
  | rdc k =>
    have hread := portRdc_forbidden (s := takeOp s rest) hop
    rw [hfault] at hread
    exact congrArg _ hread
  | issue | reset => exact hop.elim

/-- A forbidden operation in a faulted block is answered, and the first fault stays recorded (R155). -/
theorem step_forbidden_of_faulted {op : PortOp s.params.bits} (hport : s.port = op :: rest)
    (hop : op.forbidden s.params) (hf : s.faulted = true) :
    step s = .next { s with port := rest, answer := op.forbiddenAnswer } :=
  step_forbidden hport hop (raiseFault_of_faulted (s := takeOp s rest) hf)

/-- A forbidden operation in a legal block that is not faulted: `CAUSE = 5`, `FCMD = 0` (R36, R151, R153). -/
theorem step_forbidden_of_legal {op : PortOp s.params.bits} (hport : s.port = op :: rest)
    (hop : op.forbidden s.params) (hs : s.csrsLegal = true) (hf : s.faulted = false) :
    step s = .next { s with port := rest, answer := op.forbiddenAnswer, fstat := 0x51, fcmd := 0 } :=
  step_forbidden hport hop (raiseFault_of_legal ((takeOp_sameCsrs s rest).csrsLegal.trans hs) hf .portAccess 0)

/-- One step of `RDV` in range, in any block, faulted or not (R32, R155). -/
theorem step_rdv {r : VReg} {j : Nat} (hport : s.port = .rdv r.val j :: rest) (hj : j < s.params.words) :
    step s = .next { s with port := rest, answer := .word ((s.readV r).word j) } :=
  (step_cons hport).trans (congrArg _ (portRdv_in_range (s := takeOp s rest) r hj))

/-- One step of `RDS` in range, in any block, faulted or not (R33, R155). -/
theorem step_rds {r : SReg} (hport : s.port = .rds r.val :: rest) :
    step s = .next { s with port := rest, answer := .word (s.readS r) } :=
  (step_cons hport).trans (congrArg _ (portRds_in_range r (takeOp s rest)))

/-- One step of `WRS` in range in a block that is not faulted (R33). -/
theorem step_wrs {r : SReg} {data : Word s.params.bits} (hport : s.port = .wrs r.val data :: rest)
    (hf : s.faulted = false) : step s = .next { s with s := s.s.set r data, port := rest, answer := .none } :=
  (step_cons hport).trans (congrArg _ (portWrs_in_range (s := takeOp s rest) r data hf))

end

/-- The block with `v[r]` holding `a` and `ops` pending: what every `WRV` to `v[r]` leaves (R32). -/
def State.loaded (s : State) (r : VReg) (a : Wide s.params.bits s.params.words) (ops : List (PortOp s.params.bits)) :
    State :=
  { s with v := s.v.set r a, port := ops, answer := .none }

@[simp] theorem readV_loaded (s : State) (r : VReg) (a : Wide s.params.bits s.params.words)
    (ops : List (PortOp s.params.bits)) : (s.loaded r a ops).readV r = a :=
  Vector.getElem_set_self r.isLt

theorem loaded_loaded (s : State) (r : VReg) (a b : Wide s.params.bits s.params.words)
    (ops ops' : List (PortOp s.params.bits)) : (s.loaded r a ops).loaded r b ops' = s.loaded r b ops' := by
  simp [State.loaded]

/-- One step of `WRV` in range in a block that is not faulted (R32). -/
theorem step_wrv {s : State} {rest : List (PortOp s.params.bits)} {r : VReg} {j : Nat} {data : Word s.params.bits}
    (hport : s.port = .wrv r.val j data :: rest) (hj : j < s.params.words) (hf : s.faulted = false) :
    step s = .next (s.loaded r ((s.readV r).setWord j data) rest) :=
  (step_cons hport).trans (congrArg _ (portWrv_in_range (s := takeOp s rest) r hj data hf))

/-- A further `WRV` to the register just written changes that register's value only (R32). -/
theorem step_wrv_of_loaded {s : State} {rest : List (PortOp s.params.bits)} {r : VReg} {j : Nat}
    {data : Word s.params.bits} {a : Wide s.params.bits s.params.words} (hj : j < s.params.words)
    (hf : s.faulted = false) :
    step (s.loaded r a (.wrv r.val j data :: rest)) = .next (s.loaded r (a.setWord j data) rest) := by
  have hstep := step_wrv (s := s.loaded r a (.wrv r.val j data :: rest)) rfl hj hf
  rw [readV_loaded] at hstep
  exact hstep.trans (congrArg _ (loaded_loaded s r a _ _ rest))

/-- Settles O51: `step_wrv` and `step_rdv`. -/
theorem wrvAndRdvReachOneWord : Obligations.WrvAndRdvReachOneWord :=
  fun _ _ _ _ hj => ⟨fun _ hf hport => ⟨_, rfl, step_wrv hport hj hf⟩, fun hport => step_rdv hport hj⟩

/-- Settles O52: `step_wrs` and `step_rds`. -/
theorem wrsAndRdsReachOneRegister : Obligations.WrsAndRdsReachOneRegister :=
  fun _ _ _ => ⟨fun _ hf hport => step_wrs hport hf, step_rds⟩

/-- Settles O54: each of the six operations is forbidden, and a forbidden one takes the port fault. -/
theorem portAccessOutOfRangeFaults : Obligations.PortAccessOutOfRangeFaults :=
  fun _ _ hs hf =>
    ⟨fun _ _ _ hrange hport => step_forbidden_of_legal hport hrange hs hf,
      fun _ _ hrange hport => step_forbidden_of_legal hport hrange hs hf,
      fun _ _ hrange hport => step_forbidden_of_legal hport hrange hs hf,
      fun _ hrange hport => step_forbidden_of_legal hport hrange hs hf,
      fun _ hrange hport => step_forbidden_of_legal hport hrange hs hf,
      fun _ _ hport => step_forbidden_of_legal hport trivial hs hf⟩

/-- Settles O7: commands and writes are refused, reads in range are answered as in any block, and a forbidden read is
answered without a second fault. -/
theorem faultedBlockOnlyAnswersReads : Obligations.FaultedBlockOnlyAnswersReads := by
  intro s rest hf
  refine ⟨?issue, ?wrv, ?wrs, ?wrc, ?rdv, ?rdvForbidden, ?rds, ?rdsForbidden, ?flags, ?fstat, ?fcmd, ?ccnt,
    ?rdcForbidden⟩
  case issue => exact fun c hport => (step_cons hport).trans (portIssue_of_faulted (s := takeOp s rest) c hf)
  case wrv => exact fun r j d hport => step_write_of_faulted hport trivial hf
  case wrs => exact fun r d hport => step_write_of_faulted hport trivial hf
  case wrc => exact fun k d hport => step_write_of_faulted hport trivial hf
  case rdv => exact fun r j hj hport => step_rdv hport hj
  case rdvForbidden => exact fun r j hrange hport => step_forbidden_of_faulted hport hrange hf
  case rds => exact fun r hport => step_rds hport
  case rdsForbidden => exact fun r hrange hport => step_forbidden_of_faulted hport hrange hf
  case flags => exact fun hport => step_rdc hport rfl
  case fstat => exact fun hport => step_rdc hport rfl
  case fcmd => exact fun hport => step_rdc hport rfl
  case ccnt => exact fun hport => step_rdc hport rfl
  case rdcForbidden => exact fun k hk hport => step_forbidden_of_faulted hport (Nat.not_lt.mpr hk) hf

end Sys2Proof.Machine
end

section
/-!
Repeated writes (R35, R39, R41): a second write of the same data changes nothing, and writing every word of a value
loads it.
-/

namespace Sys2Proof

/-- Two wide values with the same words are the same (R11). -/
theorem Wide.eq_of_word {bits w : Nat} {a b : Wide bits w} (h : ∀ j < w, a.word j = b.word j) : a = b := by
  obtain ⟨l, hl⟩ := a
  obtain ⟨m, hm⟩ := b
  have hlm : l = m := by
    refine List.ext_getElem (hl.trans hm.symm) fun j hjl hjm => ?_
    simpa [Wide.word, hjl, hjm] using h j (hl ▸ hjl)
  subst hlm
  rfl

theorem Wide.setWord_setWord {bits w : Nat} (a : Wide bits w) (j : Nat) (x : Word bits) :
    (a.setWord j x).setWord j x = a.setWord j x := by
  simp [Wide.setWord]

/-- `a` with the words of `x` at the indices `js` written into it, in that order (R35). -/
def Wide.copyWords {bits w : Nat} (x : Wide bits w) (js : List Nat) (a : Wide bits w) : Wide bits w :=
  js.foldl (fun a j => a.setWord j (x.word j)) a

@[simp] theorem Wide.copyWords_nil {bits w : Nat} (x a : Wide bits w) : x.copyWords [] a = a := rfl

@[simp] theorem Wide.copyWords_cons {bits w : Nat} (x : Wide bits w) (j : Nat) (js : List Nat) (a : Wide bits w) :
    x.copyWords (j :: js) a = x.copyWords js (a.setWord j (x.word j)) := rfl

/-- A word that `x` and `a` agree on stays: every write to it writes the same. -/
theorem Wide.word_copyWords_of_eq {bits w : Nat} {x a : Wide bits w} {js : List Nat} {k : Nat} (hk : k < w)
    (h : a.word k = x.word k) : (x.copyWords js a).word k = x.word k := by
  induction js generalizing a with
  | nil => exact h
  | cons j js ih =>
    apply ih
    obtain rfl | hjk := eq_or_ne j k
    · exact Wide.word_setWord_same a hk _
    · rw [Wide.word_setWord_ne a hjk, h]

/-- Every word written is that of `x` at the end, whatever the register held. -/
theorem Wide.word_copyWords_of_mem {bits w : Nat} {x a : Wide bits w} {js : List Nat} {k : Nat} (hk : k < w)
    (h : k ∈ js) : (x.copyWords js a).word k = x.word k := by
  induction js generalizing a with
  | nil => cases h
  | cons j js ih =>
    obtain rfl | hmem := List.mem_cons.mp h
    · exact Wide.word_copyWords_of_eq (js := js) hk (Wide.word_setWord_same a hk _)
    · exact ih hmem

/-- Writing all `W` words of `x` makes the value `x` (R35). -/
theorem Wide.copyWords_range {bits w : Nat} (x a : Wide bits w) : x.copyWords (List.range w) a = x :=
  Wide.eq_of_word fun _ hj => Wide.word_copyWords_of_mem hj (List.mem_range.mpr hj)

end Sys2Proof

namespace Sys2Proof.Machine

/-- A run begins with one step. -/
theorem run_succ_of_step (M : Host.Core) {s t : M.State} (h : M.step s = .next t) (k : Nat) :
    M.run (k + 1) s = M.run k t := by
  rw [Host.Core.run, h]

/-- `run_succ_of_step` for this machine, in terms of its own `step`. -/
theorem run_succ {s t : State} (h : step s = .next t) (k : Nat) :
    Host.Core.run core (k + 1) s = Host.Core.run core k t :=
  run_succ_of_step core h k

section
variable {s : State} {r : VReg} {x : Wide s.params.bits s.params.words} {js : List Nat}

/-- The run of `WRV`s to one register, one step for each, from a block in which that register was just written. -/
theorem run_wrvs_of_loaded (hf : s.faulted = false) (hjs : ∀ j ∈ js, j < s.params.words)
    (a : Wide s.params.bits s.params.words) :
    Host.Core.run core js.length (s.loaded r a (js.map fun j => .wrv r.val j (x.word j))) =
      .next (s.loaded r (x.copyWords js a) []) := by
  induction js generalizing a with
  | nil => rfl
  | cons j js ih =>
    obtain ⟨hj, hrest⟩ := List.forall_mem_cons.mp hjs
    exact (run_succ (step_wrv_of_loaded hj hf) js.length).trans (ih hrest _)

/-- The run of one or more `WRV`s to one register, one step for each, in a block that is not faulted (R32, R41). -/
theorem run_wrvs {j : Nat} (hf : s.faulted = false) (hjs : ∀ k ∈ j :: js, k < s.params.words)
    (hport : s.port = (j :: js).map fun k => .wrv r.val k (x.word k)) :
    Host.Core.run core (j :: js).length s = .next (s.loaded r (x.copyWords (j :: js) (s.readV r)) []) := by
  obtain ⟨hj, hrest⟩ := List.forall_mem_cons.mp hjs
  exact (run_succ (step_wrv hport hj hf) js.length).trans (run_wrvs_of_loaded hf hrest _)

end

/-- Settles O55: the run of `WRV`s over the `W >= 1` indices copies every word of `x` into the register. -/
theorem writingEveryWordLoadsTheValue : Obligations.WritingEveryWordLoadsTheValue := by
  intro s r x hf hport
  have hload := x.copyWords_range (s.readV r)
  have hlen : (List.range s.params.words).length = s.params.words := List.length_range
  have hmem : ∀ k ∈ List.range s.params.words, k < s.params.words := fun _ => List.mem_range.mp
  cases hrange : List.range s.params.words with
  | nil => exact absurd (List.range_eq_nil.mp hrange) s.params.words_pos.ne'
  | cons j js =>
    rw [hrange] at hport hload hlen hmem
    have hrun := run_wrvs hf hmem hport
    rwa [hlen, hload] at hrun

/-- After the first fault the block is faulted (R153). -/
theorem faulted_of_setFault {s : State} (c : Cause) (hf : s.faulted = false) :
    ({ s with fstat := setFault s.fstat c } : State).faulted = true := by
  have hfault := faulted_raiseFault c s.fcmd s
  rwa [raiseFault_of_not_faulted hf] at hfault

/-- One step of a forbidden write in a block that is not faulted (R36, R153). -/
theorem step_forbidden_write {s : State} {rest : List (PortOp s.params.bits)} {op : PortOp s.params.bits}
    (hport : s.port = op :: rest) (hwrite : op.isWrite) (hop : op.forbidden s.params) (hf : s.faulted = false) :
    step s = .next { s with port := rest, answer := .none, fstat := setFault s.fstat .portAccess, fcmd := 0 } := by
  have hstep := step_forbidden hport hop (raiseFault_of_not_faulted (s := takeOp s rest) hf)
  rwa [forbiddenAnswer_write hwrite] at hstep

/-- Settles O56: while faulted both writes are refused; a forbidden write faults, so its repetition is refused; a write
in range writes the word that is already there. -/
theorem writesAreIdempotent : Obligations.WritesAreIdempotent := by
  intro s rest op hop
  have hwrite : op.isWrite := by obtain ⟨r, j, d, rfl⟩ | ⟨r, d, rfl⟩ := hop <;> trivial
  cases hf : s.faulted with
  | true => exact ⟨_, _, step_write_of_faulted rfl hwrite hf, step_write_of_faulted rfl hwrite hf,
      step_write_of_faulted rfl hwrite hf⟩
  | false =>
    by_cases hforbidden : op.forbidden s.params
    · exact ⟨_, _, step_forbidden_write rfl hwrite hforbidden hf, step_forbidden_write rfl hwrite hforbidden hf,
        step_write_of_faulted rfl hwrite (faulted_of_setFault .portAccess hf)⟩
    · obtain ⟨r, j, d, rfl⟩ | ⟨r, d, rfl⟩ := hop
      · obtain ⟨hr, hj⟩ := not_not.mp hforbidden
        refine ⟨_, _, step_wrv (r := ⟨r, hr⟩) rfl hj hf, step_wrv (r := ⟨r, hr⟩) rfl hj hf, ?_⟩
        have hagain := step_wrv_of_loaded (rest := rest) (r := ⟨r, hr⟩) (data := d)
          (a := (s.readV ⟨r, hr⟩).setWord j d) hj hf
        rwa [Wide.setWord_setWord] at hagain
      · have hr : r < 8 := not_not.mp hforbidden
        refine ⟨_, _, step_wrs (r := ⟨r, hr⟩) rfl hf, step_wrs (r := ⟨r, hr⟩) rfl hf, ?_⟩
        have hagain := step_wrs (s := { s with s := s.s.set r d, port := .wrs r d :: rest, answer := .none })
          (r := ⟨r, hr⟩) rfl hf
        rwa [Vector.set_set] at hagain

end Sys2Proof.Machine
end

section
/-!
Every step answers a next state, and the step of an `ISSUE` is the command its word spells (R37, R38, R55, R178).
-/

namespace Sys2Proof.Machine

theorem portIssue_of_decode {c : BitVec 32} {i : Instr} (hdec : decode c = .ok i) (s : State) :
    portIssue c s = exec i s := by
  rw [portIssue, hdec]

/-- One step of `ISSUE` of a legal word (R37). -/
theorem step_issue {s : State} {c : BitVec 32} {rest : List (PortOp s.params.bits)} {i : Instr}
    (hport : s.port = .issue c :: rest) (hdec : decode c = .ok i) :
    step s = exec i { s with port := rest, answer := .none } :=
  (step_cons hport).trans (portIssue_of_decode hdec (takeOp s rest))

/-- The word that `withFetchWord` puts in front is the one it is given. -/
theorem port_withFetchWord (s : State) (c : BitVec 32) :
    (s.withFetchWord 32 c.toNat).port = .issue c :: s.port := by
  have hword : BitVec.ofNat 32 (c.toNat % 2 ^ 32) = c := by
    rw [Nat.mod_eq_of_lt c.isLt, BitVec.ofNat_toNat, BitVec.setWidth_eq]
  exact congrArg (PortOp.issue · :: s.port) hword

/-- Settles O5: `step_issue`, for a list of operations and for a word put in front. -/
theorem stepRunsTheIssuedCommand : Obligations.StepRunsTheIssuedCommand :=
  fun s c _ _ hdec => ⟨fun hport => step_issue hport hdec, step_issue (port_withFetchWord s c) hdec⟩

/-- Every port operation completes (R38); an `ISSUE` does because every command answers, and an illegal word faults. -/
theorem portStep_answers_next (s : State) (op : PortOp s.params.bits) : ∃ t, portStep s op = .next t := by
  cases op with
  | issue cmd =>
    cases hdec : decode cmd with
    | ok i =>
      obtain ⟨t, ht⟩ := exec_answers_next i s
      exact ⟨t, (portIssue_of_decode hdec s).trans ht⟩
    | error e => exact ⟨_, by rw [portStep, portIssue, hdec]⟩
  | wrv | rdv | wrs | rds | rdc | wrc | reset => exact ⟨_, rfl⟩

/-- Settles O14: idle, or one port operation. -/
theorem everyStepAnswersANextState : Obligations.EveryStepAnswersANextState := by
  intro s
  cases hport : s.port with
  | nil => exact ⟨s, by rw [step, hport]⟩
  | cons op rest =>
    rw [step_cons hport]
    exact portStep_answers_next (takeOp s rest) op

end Sys2Proof.Machine
end

section
/-!
The round trip of a command (R51, R52, R55): its word carries its opcode and operands field by field, so the word
passes every check of the decoder and the fields spell the command again.
-/

namespace Sys2Proof

@[simp] theorem regOf_val (r : Fin 8) : regOf r.val = r := Fin.ext (Nat.mod_eq_of_lt r.isLt)

section
variable (o : Opcode) (rd ra rb rc : Fin 8) {lo8 : Nat}

@[simp] theorem bitField_packCommand_rd (h : lo8 < 256) : bitField (packCommand o rd ra rb rc lo8) 22 20 = rd.val := by
  obtain ⟨-, hrd, -⟩ := bitField_packCommand o rd ra rb rc h
  exact hrd

@[simp] theorem bitField_packCommand_ra (h : lo8 < 256) : bitField (packCommand o rd ra rb rc lo8) 18 16 = ra.val := by
  obtain ⟨-, -, hra, -⟩ := bitField_packCommand o rd ra rb rc h
  exact hra

@[simp] theorem bitField_packCommand_rb (h : lo8 < 256) : bitField (packCommand o rd ra rb rc lo8) 14 12 = rb.val := by
  obtain ⟨-, -, -, hrb, -⟩ := bitField_packCommand o rd ra rb rc h
  exact hrb

@[simp] theorem bitField_packCommand_rc (h : lo8 < 256) : bitField (packCommand o rd ra rb rc lo8) 10 8 = rc.val := by
  obtain ⟨-, -, -, -, hrc, -⟩ := bitField_packCommand o rd ra rb rc h
  exact hrc

@[simp] theorem bitField_packCommand_lo8 (h : lo8 < 256) : bitField (packCommand o rd ra rb rc lo8) 7 0 = lo8 := by
  obtain ⟨-, -, -, -, -, hlo8, -⟩ := bitField_packCommand o rd ra rb rc h
  exact hlo8

/-- The parts of the low byte of MMUL's word (R51): bit 7, `re` and bits 3:0. -/
theorem bitField_packCommand_re (re : Fin 8) :
    bitField (packCommand o rd ra rb rc (re.val * 2 ^ 4)) 7 7 = 0 ∧
    bitField (packCommand o rd ra rb rc (re.val * 2 ^ 4)) 6 4 = re.val ∧
    bitField (packCommand o rd ra rb rc (re.val * 2 ^ 4)) 3 0 = 0 := by
  have hlo := bitField_packCommand_lo8 o rd ra rb rc (lo8 := re.val * 2 ^ 4) (by omega)
  simp only [bitField] at hlo ⊢
  omega

end

/-- Every command's word is packed under its own opcode (R51, R54). -/
theorem encode_eq_packCommand (i : Instr) :
    ∃ rd ra rb rc lo8, lo8 < 256 ∧ encode i = packCommand i.opcode rd ra rb rc lo8 := by
  cases i with
  | shli rd ra imm8 | shri rd ra imm8 => exact ⟨_, _, _, _, _, imm8.isLt, rfl⟩
  | mmul rd ra rb rc re => exact ⟨_, _, _, _, _, by omega, rfl⟩
  | _ => exact ⟨_, _, _, _, 0, by decide, rfl⟩

theorem opcode_encode (i : Instr) : bitField (encode i) 31 24 = i.opcode.byte := by
  obtain ⟨rd, ra, rb, rc, lo8, hlo, hword⟩ := encode_eq_packCommand i
  rw [hword]
  exact Laws.opcode_of_packCommand i.opcode rd ra rb rc hlo

theorem mustBeZeroBitsClear_encode (i : Instr) : mustBeZeroBitsClear (encode i) = true := by
  obtain ⟨rd, ra, rb, rc, lo8, hlo, hword⟩ := encode_eq_packCommand i
  obtain ⟨-, -, -, -, -, -, hz⟩ := bitField_packCommand i.opcode rd ra rb rc hlo
  rwa [hword]

/-- The encoder writes 0 into every field that R52 marks `-`. -/
theorem unusedFieldsClear_encode (i : Instr) : unusedFieldsClear i.opcode (encode i) = true := by
  cases i with
  | shli rd ra imm8 | shri rd ra imm8 =>
    have himm : imm8.toNat < 256 := imm8.isLt
    simp [encode, Instr.opcode, unusedFieldsClear, Opcode.uses, himm]
  | _ => simp [encode, Instr.opcode, unusedFieldsClear, Opcode.uses]

theorem lowByteAllowed_encode (i : Instr) : lowByteAllowed i.opcode (encode i) = true := by
  cases i with
  | mmul rd ra rb rc re =>
    obtain ⟨h7, -, h3⟩ := bitField_packCommand_re .mmul rd ra rb rc re
    simp only [encode, Instr.opcode, lowByteAllowed, h7, h3, beq_self_eq_true, Bool.and_self]
  | shli rd ra imm8 | shri rd ra imm8 => rfl
  | _ => simp [encode, Instr.opcode, lowByteAllowed]

/-- The fields of a command's word spell the command. -/
theorem assemble_encode (i : Instr) : assemble i.opcode (encode i) = i := by
  cases i with
  | mmul rd ra rb rc re =>
    obtain ⟨-, hre, -⟩ := bitField_packCommand_re .mmul rd ra rb rc re
    have hlo : re.val * 2 ^ 4 < 256 := by omega
    simp only [encode, Instr.opcode, assemble, hre, hlo, bitField_packCommand_rd, bitField_packCommand_ra,
      bitField_packCommand_rb, bitField_packCommand_rc, regOf_val]
  | shli rd ra imm8 | shri rd ra imm8 =>
    have himm : imm8.toNat < 256 := imm8.isLt
    simp [encode, Instr.opcode, assemble, himm]
  | _ => simp [encode, Instr.opcode, assemble]

/-- A word that spells a well-formed command passes the decoder's last check (R55, R107). -/
theorem distinctDestinations_of_wellFormed {o : Opcode} {c : BitVec 32} (h : (assemble o c).wellFormed = true) :
    ¬ (o = .egcd ∧ bitField c 22 20 = bitField c 10 8) := by
  rintro ⟨rfl, hsame⟩
  simp [assemble, Instr.wellFormed, hsame] at h

/-- Settles O1: the command's word passes the checks of R55 one by one, and its fields spell the command. -/
theorem decodeOfEncodeIsTheCommand : Obligations.DecodeOfEncodeIsTheCommand := by
  intro i hwf
  have hdistinct := distinctDestinations_of_wellFormed ((congrArg Instr.wellFormed (assemble_encode i)).trans hwf)
  calc decode (encode i)
      = .ok (assemble i.opcode (encode i)) :=
        decode_of_checks (opcode_encode i) (mustBeZeroBitsClear_encode i) (unusedFieldsClear_encode i)
          (lowByteAllowed_encode i) hdistinct
    _ = .ok i := by rw [assemble_encode]

/-- A word is legal if it is the word of a well-formed command. -/
theorem decode_of_encode_eq {i : Instr} {c : BitVec 32} (hwf : i.wellFormed = true) (hword : encode i = c) :
    decode c = .ok i :=
  hword ▸ decodeOfEncodeIsTheCommand i hwf

/-- Settles O4: each legal word is its command's own; the illegal ones break R55 by bit 23, by a field that ADD does
not use, and by EGCD's equal destinations. -/
theorem workedEncodingsDecodeAsListed : Obligations.WorkedEncodingsDecodeAsListed := by
  have hbit : decode 0x11923000 = .error .mustBeZeroBit := by decide
  have hfield : decode 0x11123100 = .error .unusedField := by decide
  have hdest : decode 0x20023000 = .error .equalDestinations := by decide
  refine ⟨?_, ?_, ?_, ?_, ?_, ?_, ?_, ?_, ?_, ?_, ?_, ?_, congrArg Except.toOption hbit,
    congrArg Except.toOption hfield, congrArg Except.toOption hdest⟩
  all_goals exact decode_of_encode_eq (by decide) (by decide)

end Sys2Proof
end

section
/-!
Legal words and the opcode table (R54, R55): the 21 opcode bytes differ, so a word spells the row of its own opcode or
none, and it decodes iff it spells one and is no EGCD with equal destinations.
-/

namespace Sys2Proof

/-- The bytes of R54 are distinct. -/
theorem Opcode.byte_injective : Function.Injective Opcode.byte := by
  intro o o' h
  have hread := Opcode.ofByte_byte o
  rw [h, Opcode.ofByte_byte o'] at hread
  exact (Option.some.inj hread).symm

theorem opcode_assemble (o : Opcode) (c : BitVec 32) : (assemble o c).opcode = o := by cases o <;> rfl

theorem opcodeTable_one_row (o : Opcode) : (opcodeTable.filter fun row => row.opcode == o).length = 1 := by
  cases o <;> decide

theorem exists_row (o : Opcode) : ∃ row ∈ opcodeTable, row.opcode = o := by
  obtain ⟨row, hrow⟩ := List.length_eq_one_iff.mp (opcodeTable_one_row o)
  have hmem : row ∈ opcodeTable.filter fun row => row.opcode == o := by simp [hrow]
  obtain ⟨htable, hop⟩ := List.mem_filter.mp hmem
  exact ⟨row, htable, beq_iff_eq.mp hop⟩

/-- When a word spells one row, it spells exactly the rows of that row's opcode. -/
theorem spells_iff_opcode {row row' : TableRow} {c : BitVec 32} (hrow : row ∈ opcodeTable) (hs : row.spells c = true)
    (hrow' : row' ∈ opcodeTable) : row'.spells c = true ↔ row'.opcode = row.opcode := by
  have hchecks := (TableRow.spells_iff hrow c).mp hs
  constructor
  · intro hs'
    have hbyte := ((TableRow.spells_iff hrow' c).mp hs').1
    exact Opcode.byte_injective (hbyte.symm.trans hchecks.1)
  · intro hop
    rw [TableRow.spells_iff hrow', hop]
    exact hchecks

/-- Matching exactly one row is matching a row (R54). -/
theorem spells_one_row_iff {c : BitVec 32} :
    (opcodeTable.filter fun row => row.spells c).length = 1 ↔ ∃ row ∈ opcodeTable, row.spells c = true := by
  constructor
  · intro hone
    obtain ⟨row, hrow⟩ := List.length_eq_one_iff.mp hone
    have hmem : row ∈ opcodeTable.filter fun row => row.spells c := by simp [hrow]
    exact ⟨row, List.mem_filter.mp hmem⟩
  · rintro ⟨row, hrow, hs⟩
    rw [List.filter_congr fun row' hrow' => Bool.eq_iff_iff.mpr
      ((spells_iff_opcode hrow hs hrow').trans beq_iff_eq.symm)]
    exact opcodeTable_one_row row.opcode

/-- A word that decodes spells the row of its command, and is no EGCD with equal destinations (R55). -/
theorem row_of_decode {c : BitVec 32} {i : Instr} (h : decode c = .ok i) :
    (∃ row ∈ opcodeTable, row.opcode = i.opcode ∧ row.spells c = true) ∧
      ¬ (i.opcode = .egcd ∧ bitField c 22 20 = bitField c 10 8) := by
  obtain ⟨o, ho, hz, hu, hl, hdistinct, rfl⟩ := decode_ok h
  rw [opcode_assemble]
  obtain ⟨row, hrow, rfl⟩ := exists_row o
  exact ⟨⟨row, hrow, rfl, (TableRow.spells_iff hrow c).mpr ⟨ho.symm, hz, hu, hl⟩⟩, hdistinct⟩

/-- A word that spells a row decodes, unless it is an EGCD with equal destinations (R55). -/
theorem decode_of_row {c : BitVec 32} {row : TableRow} (hrow : row ∈ opcodeTable) (hs : row.spells c = true)
    (hdistinct : ¬ (row.opcode = .egcd ∧ bitField c 22 20 = bitField c 10 8)) :
    decode c = .ok (assemble row.opcode c) := by
  obtain ⟨ho, hz, hu, hl⟩ := (TableRow.spells_iff hrow c).mp hs
  exact decode_of_checks ho hz hu hl hdistinct

/-- Settles O3: `row_of_decode` and `decode_of_row`; the one row a word spells is that of the EGCD in question. -/
theorem legalWordsAreTheRowsOfTheTable : Obligations.LegalWordsAreTheRowsOfTheTable := by
  refine fun c => ⟨⟨?_, ?_⟩, fun i h => (row_of_decode h).1⟩
  · rintro ⟨i, h⟩
    obtain ⟨⟨row, hrow, hop, hs⟩, hdistinct⟩ := row_of_decode h
    refine ⟨spells_one_row_iff.mpr ⟨row, hrow, hs⟩, ?_⟩
    rintro ⟨⟨egcdRow, hegcdRow, hegcd, hs'⟩, hsame⟩
    have hopcode : egcdRow.opcode = row.opcode := (spells_iff_opcode hrow hs hegcdRow).mp hs'
    exact hdistinct ⟨hop.symm.trans (hopcode.symm.trans hegcd), hsame⟩
  · rintro ⟨hone, hno⟩
    obtain ⟨row, hrow, hs⟩ := spells_one_row_iff.mp hone
    exact ⟨_, decode_of_row hrow hs fun ⟨hegcd, hsame⟩ => hno ⟨⟨row, hrow, hegcd, hs⟩, hsame⟩⟩

/-- A word of EGCD's opcode with equal destinations is illegal, whatever its other bits (R55, R107). -/
theorem decode_egcd_equal_destinations {c : BitVec 32} (hop : bitField c 31 24 = 0x20)
    (hsame : bitField c 22 20 = bitField c 10 8) : ∃ e, decode c = .error e := by
  cases hdec : decode c with
  | error e => exact ⟨e, rfl⟩
  | ok i =>
    obtain ⟨o, ho, -, -, -, hdistinct, -⟩ := decode_ok hdec
    have hegcd : o = .egcd := Opcode.byte_injective (ho.trans hop)
    exact absurd ⟨hegcd, hsame⟩ hdistinct

end Sys2Proof
end

section
/-!
The fault `ILLEGAL_COMMAND` (R55, R151, R153): the step of an illegal word, and EGCD with equal destinations.
-/

namespace Sys2Proof.Machine

/-- Settles O6: the step of an `ISSUE` is the fault entry, in a state with the CSRs of `s`. -/
theorem illegalCommandWordFaults : Obligations.IllegalCommandWordFaults := by
  intro s c rest e hs hf hport hdec
  have hissue : portIssue c (takeOp s rest) = .next (raiseFault .illegalCommand c (takeOp s rest)) := by
    rw [portIssue, hdec]
  have hlegal : (takeOp s rest).csrsLegal = true := (takeOp_sameCsrs s rest).csrsLegal.trans hs
  calc step s
      = .next (raiseFault .illegalCommand c (takeOp s rest)) := (step_cons hport).trans hissue
    _ = .next { s with port := rest, answer := .none, fstat := 0x11, fcmd := c } :=
        congrArg _ (raiseFault_of_legal hlegal hf .illegalCommand c)

theorem exec_egcd (rd rc ra rb : SReg) (s : State) : exec (.egcd rd rc ra rb) s = execEgcd rd rc ra rb s := rfl

/-- EGCD with equal destinations as a command of its own (log 9): the fault entry. -/
theorem exec_egcd_equal_destinations (rd ra rb : SReg) {s : State} (hf : s.faulted = false) :
    exec (.egcd rd rd ra rb) s = .next (raiseFault .illegalCommand (encode (.egcd rd rd ra rb)) s) := by
  rw [exec_egcd, execEgcd, if_pos rfl, runCommand_faults hf]

/-- Settles O39: its words do not decode, so they fault as any illegal word does; the command itself fails its check. -/
theorem egcdWithEqualDestinationsIsIllegal : Obligations.EgcdWithEqualDestinationsIsIllegal := by
  intro s hs hf
  constructor
  · intro c rest hop hsame hport
    obtain ⟨e, hdec⟩ := decode_egcd_equal_destinations hop hsame
    exact illegalCommandWordFaults s c rest e hs hf hport hdec
  · intro rd ra rb
    rw [exec_egcd_equal_destinations rd ra rb hf]
    exact congrArg _ (raiseFault_of_legal hs hf .illegalCommand _)

end Sys2Proof.Machine
end

section
/-!
Constants and predicates (R70 to R77): none of these commands has a check, so each completes with its effect. CZERO,
CONE, CTWO, CTHREE and FROMW write one word and zeros; ISZ and LOWB write one field of `FLAGS`.
-/

namespace Sys2Proof

/-- The word of a command with operands in `rd` and `ra` only (R51). -/
theorem toNat_packCommand_rd_ra (o : Opcode) (rd ra : Fin 8) :
    (packCommand o rd ra 0 0 0).toNat = o.byte * 0x1000000 + rd.val * 0x100000 + ra.val * 0x10000 := by
  simpa using toNat_packCommand o rd ra 0 0 (lo8 := 0) (by decide)

/-- The word of a command whose only operand is its destination (R51). -/
theorem toNat_packCommand_rd (o : Opcode) (rd : Fin 8) :
    (packCommand o rd 0 0 0 0).toNat = o.byte * 0x1000000 + rd.val * 0x100000 := by
  simpa using toNat_packCommand_rd_ra o rd 0

/-- The word of a command whose only operand is its source `ra` (R51). -/
theorem toNat_packCommand_ra (o : Opcode) (ra : Fin 8) :
    (packCommand o 0 ra 0 0 0).toNat = o.byte * 0x1000000 + ra.val * 0x10000 := by
  simpa using toNat_packCommand_rd_ra o 0 ra

theorem takeWords_nil {bits : Nat} (count : Nat) :
    takeWords count ([] : List (Word bits)) = List.replicate count 0 := by
  induction count with
  | zero => rfl
  | succ count ih => rw [takeWords, ih, List.replicate_succ]

end Sys2Proof

namespace Sys2Proof.Machine

/-- "low word = v, rest zero" (R75). -/
theorem words_fromWord {bits w : Nat} (hw : 0 < w) (x : Word bits) :
    (fromWord x : Wide bits w).words = x :: List.replicate (w - 1) 0 := by
  cases w with
  | zero => cases hw
  | succ w => exact congrArg (x :: ·) (takeWords_nil w)

theorem bitOf_eq_one_iff {b : Bool} : bitOf b = 1 ↔ b = true := by cases b <;> decide

/-- ISZ's test on numbers (R76) says that every word is zero. -/
theorem isZero_iff {bits w : Nat} {a : Wide bits w} : isZero a = true ↔ ∀ x ∈ a.words, x = 0 := by
  simp [isZero, BitVec.toNat_eq]

/-- LOWB's answer as a bit is bit 0 of word 0 (R77). -/
theorem bitOf_lowBit {bits w : Nat} (a : Wide bits w) : bitOf (lowBit a) = (a.word 0).toNat % 2 := by
  obtain h | h := Nat.mod_two_eq_zero_or_one (a.word 0).toNat <;> simp [lowBit, bitOf, h]

/-- A command without a check completes with its effect and is counted (R21). -/
theorem exec_completes {i : Instr} {s effect : State} (hrun : exec i s = runCommand i s none effect)
    (hf : s.faulted = false) : exec i s = .next effect.complete :=
  hrun.trans (runCommand_completes hf)

/-- A command whose effect is `v[rd] <- from_word(x)` writes `x` and zeros, and nothing else (R70, R75). -/
theorem exec_writes_fromWord {i : Instr} {s : State} {rd : VReg} {x : Word s.params.bits}
    (hrun : exec i s = runCommand i s none (s.writeV rd (fromWord x))) (hf : s.faulted = false) :
    ∃ y, y.words = x :: List.replicate (s.params.words - 1) 0 ∧
      exec i s = .next { s with v := s.v.set rd y, ccnt := s.ccnt + 1 } :=
  ⟨fromWord x, words_fromWord s.params.words_pos x, exec_completes hrun hf⟩

/-- A command whose effect is a new `FLAGS` writes that, and nothing else (R16, R17). -/
theorem exec_writes_flags {i : Instr} {s : State} {f : BitVec 32}
    (hrun : exec i s = runCommand i s none { s with flags := f }) (hf : s.faulted = false) :
    exec i s = .next { s with flags := f, ccnt := s.ccnt + 1 } :=
  exec_completes hrun hf

/-- Settles O24: ISZ completes with `setFlagZ`, whose answer is `isZero_iff`. -/
theorem iszWritesTheZeroFlagOnly : Obligations.IszWritesTheZeroFlagOnly := by
  intro s ra hf
  obtain ⟨hZ, hkept⟩ := setFlagZ_fields s.flags (isZero (s.readV ra))
  refine ⟨toNat_packCommand_ra .isz ra, _, ?_, hkept, exec_writes_flags rfl hf⟩
  rw [hZ, bitOf_eq_one_iff, isZero_iff]

/-- Settles O25: LOWB completes with `setFlagL`; a word has at least one bit, so its parity is that of the value. -/
theorem lowbWritesTheParityFlagOnly : Obligations.LowbWritesTheParityFlagOnly := by
  intro s ra hf
  obtain ⟨hL, hlow, hhigh⟩ := setFlagL_fields s.flags (lowBit (s.readV ra))
  have hword := hL.trans (bitOf_lowBit (s.readV ra))
  have hvalue := hword.trans (Wide.word_zero_mod_two (params_bits_pos s.params) (s.readV ra))
  exact ⟨toNat_packCommand_ra .lowb ra, _, hvalue, hword, hlow, hhigh, exec_writes_flags rfl hf⟩

/-- Settles O22: each of the four is `exec_writes_fromWord` with its own constant. -/
theorem constantCommandsWriteTheirConstant : Obligations.ConstantCommandsWriteTheirConstant :=
  fun _ rd hf =>
    ⟨toNat_packCommand_rd .czero rd, toNat_packCommand_rd .cone rd, toNat_packCommand_rd .ctwo rd,
      toNat_packCommand_rd .cthree rd, exec_writes_fromWord rfl hf, exec_writes_fromWord rfl hf,
      exec_writes_fromWord rfl hf, exec_writes_fromWord rfl hf⟩

/-- Settles O23: `exec_writes_fromWord` with the word register. -/
theorem fromwWritesTheWordAndZeros : Obligations.FromwWritesTheWordAndZeros :=
  fun _ rd ra hf => ⟨toNat_packCommand_rd_ra .fromw rd ra, exec_writes_fromWord rfl hf⟩

end Sys2Proof.Machine
end

section
/-!
Comparator (R80 to R83): EQU and CMP have no check, so each completes with its one field of `FLAGS`. What the two
answers say is stated on wide values, and the commands' statements are read off from there.
-/

namespace Sys2Proof

/-- The word of a command with operands in `ra` and `rb` only (R51). -/
theorem toNat_packCommand_ra_rb (o : Opcode) (ra rb : Fin 8) :
    (packCommand o 0 ra rb 0 0).toNat = o.byte * 0x1000000 + ra.val * 0x10000 + rb.val * 0x1000 := by
  simpa using toNat_packCommand o 0 ra rb 0 (lo8 := 0) (by decide)

end Sys2Proof

namespace Sys2Proof.Machine

/-- EQU's answer is about words (R81): all of them are equal. -/
theorem equw_iff_words {bits w : Nat} {a b : Wide bits w} : equw a b = true ↔ a.words = b.words :=
  equalWords_spec a.words b.words (a.length_eq.trans b.length_eq.symm)

/-- CMP's answer is about integers (R80, R82): 1 Less, 2 Greater, 0 Equal. -/
theorem ordCode_cmpw {bits w : Nat} (a b : Wide bits w) :
    ordCode (cmpw a b) = if a.value < b.value then 1 else if b.value < a.value then 2 else 0 := by
  rw [cmpw_spec, Nat.compare_eq_ite_lt]
  split_ifs <;> rfl

/-- `ORD` is 0 iff EQU's answer is true (R83): both say that the integers are equal. -/
theorem ordCode_cmpw_eq_zero_iff {bits w : Nat} {a b : Wide bits w} :
    ordCode (cmpw a b) = 0 ↔ equw a b = true := by
  rw [ordCode_cmpw, equw_spec, decide_eq_true_iff]
  split_ifs <;> simp <;> omega

theorem ordCode_cmpw_eq_one_iff {bits w : Nat} {a b : Wide bits w} :
    ordCode (cmpw a b) = 1 ↔ a.value < b.value := by
  rw [ordCode_cmpw]
  split_ifs <;> simp [*]

theorem ordCode_cmpw_eq_two_iff {bits w : Nat} {a b : Wide bits w} :
    ordCode (cmpw a b) = 2 ↔ b.value < a.value := by
  rw [ordCode_cmpw]
  split_ifs <;> simp <;> omega

/-- A `FLAGS` with both answers for the same two values has `E = 1` iff `ORD = 0` (R83). -/
theorem flagE_iff_flagOrd_zero {bits w : Nat} {a b : Wide bits w} {f : BitVec 32} (hE : flagE f = bitOf (equw a b))
    (hOrd : flagOrd f = ordCode (cmpw a b)) : flagE f = 1 ↔ flagOrd f = 0 := by
  rw [hE, hOrd, bitOf_eq_one_iff, ordCode_cmpw_eq_zero_iff]

/-- CMP is antisymmetric (R83): a `FLAGS` after it has 1 iff one after the swapped CMP has 2. -/
theorem flagOrd_less_iff_swap_greater {bits w : Nat} {a b : Wide bits w} {f g : BitVec 32}
    (hf : flagOrd f = ordCode (cmpw a b)) (hg : flagOrd g = ordCode (cmpw b a)) : flagOrd f = 1 ↔ flagOrd g = 2 := by
  rw [hf, hg, ordCode_cmpw_eq_one_iff, ordCode_cmpw_eq_two_iff]

theorem exec_equ (ra rb : VReg) {s : State} (hf : s.faulted = false) :
    exec (.equ ra rb) s =
      .next { s with flags := setFlagE s.flags (equw (s.readV ra) (s.readV rb)), ccnt := s.ccnt + 1 } :=
  exec_writes_flags rfl hf

theorem exec_cmp (ra rb : VReg) {s : State} (hf : s.faulted = false) :
    exec (.cmp ra rb) s =
      .next { s with flags := setFlagOrd s.flags (cmpw (s.readV ra) (s.readV rb)), ccnt := s.ccnt + 1 } :=
  exec_writes_flags rfl hf

/-- Settles O26: EQU completes with `setFlagE`, whose answer is `equw_iff_words`. -/
theorem equWritesTheEqualFlagOnly : Obligations.EquWritesTheEqualFlagOnly := by
  intro s ra rb hf
  obtain ⟨hE, hlow, hhigh⟩ := setFlagE_fields s.flags (equw (s.readV ra) (s.readV rb))
  refine ⟨toNat_packCommand_ra_rb .equ ra rb, _, ?_, hlow, hhigh, exec_equ ra rb hf⟩
  rw [hE, bitOf_eq_one_iff, equw_iff_words]

/-- Settles O27: CMP completes with `setFlagOrd`, whose answer is `ordCode_cmpw`. -/
theorem cmpWritesTheOrderOfTheIntegers : Obligations.CmpWritesTheOrderOfTheIntegers := by
  intro s ra rb hf
  obtain ⟨hOrd, hlow, hhigh⟩ := setFlagOrd_fields s.flags (cmpw (s.readV ra) (s.readV rb))
  exact ⟨toNat_packCommand_ra_rb .cmp ra rb, _, hOrd.trans (ordCode_cmpw _ _), hlow, hhigh, exec_cmp ra rb hf⟩

/-- `FLAGS` after both commands, in either order, holds both answers: neither writes the other's field (R17). -/
theorem setFlagE_setFlagOrd_fields (r : BitVec 32) (b : Bool) (o : Ordering) :
    (flagE (setFlagOrd (setFlagE r b) o) = bitOf b ∧ flagOrd (setFlagOrd (setFlagE r b) o) = ordCode o) ∧
      flagE (setFlagE (setFlagOrd r o) b) = bitOf b ∧ flagOrd (setFlagE (setFlagOrd r o) b) = ordCode o := by
  obtain ⟨-, -, hkeepsE, -⟩ := setFlagOrd_keeps (setFlagE r b) o
  obtain ⟨-, -, hkeepsOrd, -⟩ := setFlagE_keeps (setFlagOrd r o) b
  exact ⟨⟨hkeepsE.trans (setFlagE_fields r b).1, (setFlagOrd_fields _ o).1⟩,
    (setFlagE_fields _ b).1, hkeepsOrd.trans (setFlagOrd_fields r o).1⟩

/-- Settles O28: neither command writes a register, so both orders leave the two answers of the same wide values in
`FLAGS`, which agree by `flagE_iff_flagOrd_zero` and `flagOrd_less_iff_swap_greater`. -/
theorem equAgreesWithCmp : Obligations.EquAgreesWithCmp := by
  intro s ra rb hf
  obtain ⟨⟨hE, hOrd⟩, hE', hOrd'⟩ :=
    setFlagE_setFlagOrd_fields s.flags (equw (s.readV ra) (s.readV rb)) (cmpw (s.readV ra) (s.readV rb))
  have hcmp := (setFlagOrd_fields s.flags (cmpw (s.readV ra) (s.readV rb))).1
  have hswap := (setFlagOrd_fields s.flags (cmpw (s.readV rb) (s.readV ra))).1
  exact ⟨_, _, _, _, _, exec_equ ra rb hf, exec_cmp ra rb hf, exec_cmp ra rb hf, exec_equ ra rb hf, exec_cmp rb ra hf,
    flagE_iff_flagOrd_zero hE hOrd, flagE_iff_flagOrd_zero hE' hOrd', hOrd.trans_ne (ordCode_ne_three _),
    hcmp.trans_ne (ordCode_ne_three _), flagOrd_less_iff_swap_greater hcmp hswap⟩

end Sys2Proof.Machine
end

section
/-!
Adder and subtractor (R85 to R91): ADDW, ADD and SUB have no check, so each completes with its wide value in `v[rd]`.
The closed forms of R85 are stated on wide values; commutation and the round trip are read off from them.
-/

namespace Sys2Proof

/-- The word of a command with operands in `rd`, `ra` and `rb` only (R51). -/
theorem toNat_packCommand_rd_ra_rb (o : Opcode) (rd ra rb : Fin 8) :
    (packCommand o rd ra rb 0 0).toNat =
      o.byte * 0x1000000 + rd.val * 0x100000 + ra.val * 0x10000 + rb.val * 0x1000 := by
  simpa using toNat_packCommand o rd ra rb 0 (lo8 := 0) (by decide)

end Sys2Proof

namespace Sys2Proof.Machine

/-- `addc_wide` without a carry in (R88, R90): the sum modulo `R`. -/
theorem value_addcWide_false {bits w : Nat} (hb : 0 < bits) (a b : Wide bits w) :
    (addcWide a b false).1.value = (a.value + b.value) % 2 ^ (w * bits) :=
  value_addcWide hb a b false

/-- SUB's closed form without the modulo (R91): `R` is added back exactly when the difference wraps. -/
theorem value_subbWide_eq_ite {bits w : Nat} (hb : 0 < bits) (a b : Wide bits w) :
    (subbWide a b false).1.value =
      if b.value ≤ a.value then a.value - b.value else a.value + 2 ^ (w * bits) - b.value := by
  have ha := a.value_lt
  rw [value_subbWide hb]
  split
  next hle => rw [Nat.sub_add_comm hle, Nat.add_mod_right, Nat.mod_eq_of_lt (by omega)]
  next hlt => exact Nat.mod_eq_of_lt (by omega)

theorem addcWide_false_comm {bits w : Nat} (hb : 0 < bits) (a b : Wide bits w) :
    (addcWide a b false).1 = (addcWide b a false).1 :=
  Wide.eq_of_value (by rw [value_addcWide_false hb, value_addcWide_false hb, Nat.add_comm])

/-- Subtracting the second operand undoes an addition (R85): what is left of the carry and the borrow is a multiple
of `R`, and both values are below `R`. -/
theorem subbWide_addcWide_cancel {bits w : Nat} (hb : 0 < bits) (a b : Wide bits w) :
    (subbWide (addcWide a b false).1 b false).1 = a := by
  have hadd := addcWide_spec hb a b false
  have hsub := subbWide_spec hb (addcWide a b false).1 b false
  generalize addcWide a b false = sum at hadd hsub ⊢
  generalize subbWide sum.1 b false = diff at hsub ⊢
  have hbalance : diff.1.value + 2 ^ (w * bits) * bitOf sum.2 = a.value + 2 ^ (w * bits) * bitOf diff.2 := by omega
  apply Wide.eq_of_value
  calc diff.1.value = (a.value + 2 ^ (w * bits) * bitOf diff.2) % 2 ^ (w * bits) :=
        mod_of_add_mul diff.1.value_lt hbalance
    _ = a.value := (mod_of_add_mul a.value_lt rfl).symm

theorem exec_addw (rd ra : VReg) (rb : SReg) {s : State} (hf : s.faulted = false) :
    exec (.addw rd ra rb) s = .next (s.writeV rd (addWord (s.readV ra) (s.readS rb))).complete :=
  exec_completes rfl hf

theorem exec_add (rd ra rb : VReg) {s : State} (hf : s.faulted = false) :
    exec (.add rd ra rb) s = .next (s.writeV rd (addcWide (s.readV ra) (s.readV rb) false).1).complete :=
  exec_completes rfl hf

theorem exec_sub (rd ra rb : VReg) {s : State} (hf : s.faulted = false) :
    exec (.sub rd ra rb) s = .next (s.writeV rd (subbWide (s.readV ra) (s.readV rb) false).1).complete :=
  exec_completes rfl hf

theorem exec_sub_result (rd ra rb : VReg) {s : State} (hf : s.faulted = false) :
    ∃ u, exec (.sub rd ra rb) s = .next u ∧
      (u.readV rd).value = (subbWide (s.readV ra) (s.readV rb) false).1.value :=
  ⟨_, exec_sub rd ra rb hf, congrArg Wide.value (readV_writeV_same s rd _)⟩

/-- SUB of `v[rb]` in place, after a wide value has gone to another register: `v[rd]` is that value less `v[rb]`. -/
theorem exec_sub_after_write (s : State) {rd rb : VReg} (hne : rd ≠ rb) (hf : s.faulted = false)
    (x : Wide s.params.bits s.params.words) :
    ∃ u, exec (.sub rd rd rb) (s.writeV rd x).complete = .next u ∧
      (u.readV rd).value = (subbWide x (s.readV rb) false).1.value := by
  have hrd : (s.writeV rd x).complete.readV rd = x := readV_writeV_same s rd x
  have hrb : (s.writeV rd x).complete.readV rb = s.readV rb := readV_writeV_ne s hne.symm x
  obtain ⟨u, hsub, hvalue⟩ := exec_sub_result rd rd rb (s := (s.writeV rd x).complete) hf
  exact ⟨u, hsub, hvalue.trans (congrArg₂ (fun y z => (subbWide y z false).1.value) hrd hrb)⟩

/-- Settles O29: ADDW completes with `addWord`, whose closed form is `value_addWord`. -/
theorem addwWritesTheSumModR : Obligations.AddwWritesTheSumModR :=
  fun s rd ra rb hf =>
    ⟨toNat_packCommand_rd_ra_rb .addw rd ra rb, _,
      value_addWord (params_bits_pos s.params) s.params.words_pos (s.readV ra) (s.readS rb), exec_addw rd ra rb hf⟩

/-- Settles O30: ADD completes with `addcWide`, whose closed form is `value_addcWide_false`. -/
theorem addWritesTheSumModR : Obligations.AddWritesTheSumModR :=
  fun s rd ra rb hf =>
    ⟨toNat_packCommand_rd_ra_rb .add rd ra rb, _,
      value_addcWide_false (params_bits_pos s.params) (s.readV ra) (s.readV rb), exec_add rd ra rb hf⟩

/-- Settles O31: SUB completes with `subbWide`, whose closed form is `value_subbWide_eq_ite`. -/
theorem subWritesTheDifferenceModR : Obligations.SubWritesTheDifferenceModR :=
  fun s rd ra rb hf =>
    ⟨toNat_packCommand_rd_ra_rb .sub rd ra rb, _,
      value_subbWide_eq_ite (params_bits_pos s.params) (s.readV ra) (s.readV rb), exec_sub rd ra rb hf⟩

/-- Settles O32: the two sums are one wide value (`addcWide_false_comm`), and the SUB that follows reads that sum and
the `v[rb]` that ADD left alone (`subbWide_addcWide_cancel`). -/
theorem subUndoesAddAndAddCommutes : Obligations.SubUndoesAddAndAddCommutes := by
  intro s rd ra rb hf
  have hbits := params_bits_pos s.params
  constructor
  · rw [exec_add rd ra rb hf, exec_add rd rb ra hf, addcWide_false_comm hbits]
  · intro hne
    obtain ⟨u, hsub, hvalue⟩ := exec_sub_after_write s hne hf (addcWide (s.readV ra) (s.readV rb) false).1
    refine ⟨_, u, exec_add rd ra rb hf, hsub, hvalue.trans ?_⟩
    rw [subbWide_addcWide_cancel hbits]

end Sys2Proof.Machine
end

section
/-!
Shifter (R95 to R102): a shift has one check, its amount against `BITS`, and one effect, the shifted value in `v[rd]`.
What that makes of the command is said once for all four; the closed forms of R95 give each its value, and the round
trips of R102 are read off from them.
-/

namespace Sys2Proof

/-- The word of a command with operands in `rd` and `ra` and an immediate byte (R51, R53). -/
theorem toNat_packCommand_rd_ra_imm8 (o : Opcode) (rd ra : Fin 8) (imm8 : BitVec 8) :
    (packCommand o rd ra 0 0 imm8.toNat).toNat =
      o.byte * 0x1000000 + rd.val * 0x100000 + ra.val * 0x10000 + imm8.toNat := by
  simpa using toNat_packCommand o rd ra 0 0 imm8.isLt

end Sys2Proof

namespace Sys2Proof.Machine

/-- A command whose check fails, in a legal block: its cause and its word are recorded, nothing else changes (R153). -/
theorem exec_faults_of_legal {i : Instr} {s effect : State} {c : Cause}
    (hrun : exec i s = runCommand i s (some c) effect) (hf : s.faulted = false) (hlegal : s.csrsLegal = true) :
    exec i s = .next { s with fstat := BitVec.ofNat 32 (16 * c.code + 1), fcmd := encode i } := by
  rw [hrun, runCommand_faults hf, raiseFault_of_legal hlegal hf]

/-- What a shift by `k` does, said once (R97): below `BITS` it completes with its result in `v[rd]`, else it takes the
fault `SHIFT_RANGE`. -/
theorem exec_shift {i : Instr} {s : State} {rd : VReg} {k value : Nat} {x : Wide s.params.bits s.params.words}
    (hrun : exec i s = runCommand i s (shiftCheck s.params.bits k) (s.writeV rd x))
    (hvalue : k < s.params.bits → x.value = value) (hf : s.faulted = false) :
    (k < s.params.bits →
      ∃ y, y.value = value ∧ exec i s = .next { s with v := s.v.set rd y, ccnt := s.ccnt + 1 }) ∧
    (s.params.bits ≤ k → s.csrsLegal = true →
      exec i s = .next { s with fstat := 0x21, fcmd := encode i }) := by
  constructor
  · intro hk
    rw [shiftCheck_none hk] at hrun
    exact ⟨x, hvalue hk, exec_completes hrun hf⟩
  · intro hk hlegal
    rw [shiftCheck_some hk] at hrun
    exact exec_faults_of_legal hrun hf hlegal

/-- Settles O33: `exec_shift` by the word `s[rb]`, with SHL's closed form `value_shlWide`. -/
theorem shlShiftsLeftOrFaults : Obligations.ShlShiftsLeftOrFaults :=
  fun _ rd ra rb hf =>
    ⟨toNat_packCommand_rd_ra_rb .shl rd ra rb, exec_shift rfl (fun hk => value_shlWide hk _) hf⟩

/-- Settles O34: `exec_shift` by the word `s[rb]`, with SHR's closed form `value_shrWide`. -/
theorem shrShiftsRightOrFaults : Obligations.ShrShiftsRightOrFaults :=
  fun _ rd ra rb hf =>
    ⟨toNat_packCommand_rd_ra_rb .shr rd ra rb, exec_shift rfl (fun hk => value_shrWide hk _) hf⟩

/-- Settles O35: `exec_shift` by the immediate, with SHL's closed form `value_shlWide`. -/
theorem shliShiftsLeftOrFaults : Obligations.ShliShiftsLeftOrFaults :=
  fun _ rd ra imm8 hf =>
    ⟨toNat_packCommand_rd_ra_imm8 .shli rd ra imm8, exec_shift rfl (fun hk => value_shlWide hk _) hf⟩

/-- Settles O36: `exec_shift` by the immediate, with SHR's closed form `value_shrWide`. -/
theorem shriShiftsRightOrFaults : Obligations.ShriShiftsRightOrFaults :=
  fun _ rd ra imm8 hf =>
    ⟨toNat_packCommand_rd_ra_imm8 .shri rd ra imm8, exec_shift rfl (fun hk => value_shrWide hk _) hf⟩

/-- Left after right (R102): the low `k` bits are lost, and what is left never reaches `R`. -/
theorem value_shlWide_shrWide {bits w k : Nat} (hk : k < bits) (a : Wide bits w) :
    (shlWide (shrWide a k) k).value = a.value - a.value % 2 ^ k := by
  have hfits : a.value / 2 ^ k * 2 ^ k < 2 ^ (w * bits) := (Nat.div_mul_le_self _ _).trans_lt a.value_lt
  rw [value_shlWide hk, value_shrWide hk, Nat.mod_eq_of_lt hfits, Nat.div_mul_self_eq_mod_sub_self]

/-- Of `n` bits, shifting up and down again by `k` keeps the low `n - k`. -/
theorem mul_two_pow_mod_div {k n : Nat} (hk : k ≤ n) (x : Nat) : x * 2 ^ k % 2 ^ n / 2 ^ k = x % 2 ^ (n - k) := by
  rw [← pow_mul_pow_sub 2 hk, Nat.mod_mul_right_div_self, Nat.mul_div_cancel _ (Nat.two_pow_pos k)]

/-- Right after left (R102): the top `k` bits are lost. A value of no words is 0. -/
theorem value_shrWide_shlWide {bits w k : Nat} (hk : k < bits) (a : Wide bits w) :
    (shrWide (shlWide a k) k).value = a.value % 2 ^ (w * bits - k) := by
  rw [value_shrWide hk, value_shlWide hk]
  obtain rfl | hw := Nat.eq_zero_or_pos w
  · have hzero : a.value = 0 := by simpa using a.value_lt
    simp [hzero]
  · exact mul_two_pow_mod_div (hk.le.trans (Nat.le_mul_of_pos_left bits hw)) a.value

/-- Settles O37: `value_shlWide_shrWide` and `value_shrWide_shlWide`. -/
theorem shiftRoundTripsAreLossy : Obligations.ShiftRoundTripsAreLossy :=
  fun _ _ _ a _ hk => ⟨value_shlWide_shrWide hk a, value_shrWide_shlWide hk a⟩

end Sys2Proof.Machine
end

section
/-!
Extended Euclid (R105 to R111): the recursion of R106 has one solution, which the iterative form of R108 computes too;
`minv` is its use at an odd word, where `x * n = -1` has one solution (R109). EGCD has one check, its destinations;
MINV has one, the parity of its operand.
-/

namespace Sys2Proof

/-- The word of a command with operands in `rd`, `ra`, `rb` and `rc` (R51). -/
theorem toNat_packCommand_rd_ra_rb_rc (o : Opcode) (rd ra rb rc : Fin 8) :
    (packCommand o rd ra rb rc 0).toNat =
      o.byte * 0x1000000 + rd.val * 0x100000 + ra.val * 0x10000 + rb.val * 0x1000 + rc.val * 0x100 := by
  simpa using toNat_packCommand o rd ra rb rc (lo8 := 0) (by decide)

end Sys2Proof

namespace Sys2Proof.Machine

theorem word_toNat_ne_zero {bits : Nat} {a : Word bits} (ha : a ≠ 0) : a.toNat ≠ 0 :=
  fun h => ha (BitVec.eq_of_toNat_eq (by simpa using h))

/-! ### The pair of the recursion -/

/-- A function that obeys the recursion of R106 is `egcd`: its first argument strictly decreases (R108). -/
theorem eq_egcd_of_recursion {bits : Nat} {e : Word bits → Word bits → Word bits × Word bits}
    (hzero : ∀ b, e 0 b = (0, 1))
    (hrec : ∀ a b, a ≠ 0 → e a b = ((e (b % a) a).2 - b / a * (e (b % a) a).1, (e (b % a) a).1))
    (a b : Word bits) : e a b = egcd a b := by
  by_cases ha : a = 0
  · rw [ha, hzero, egcd_zero]
  · have hpos := word_toNat_ne_zero ha
    have hdecreases := toNat_umod_lt (b := b) hpos
    rw [hrec a b ha, egcd_rec hpos, eq_egcd_of_recursion hzero hrec (b % a) a]
termination_by a.toNat

/-- The recursion stops after one division when `a` divides `b`. -/
theorem egcd_of_umod_eq_zero {bits : Nat} {a b : Word bits} (ha : a ≠ 0) (h : b % a = 0) : egcd a b = (1, 0) := by
  rw [egcd_rec (word_toNat_ne_zero ha), h, egcd_zero]
  simp

/-- The backward pass undoes the forward pass: what it starts from is the pair of the recursion, at every depth
(R108). -/
theorem egcdSubstitute_egcdQuotients {bits : Nat} (fuel : Nat) (a b : Word bits) (q : List (Word bits)) :
    egcdSubstitute (egcdQuotients fuel a b q) (0, 1) = egcdSubstitute q (egcdBounded fuel a b) := by
  induction fuel generalizing a b q with
  | zero => rfl
  | succ fuel ih =>
    rw [egcdQuotients, egcdBounded]
    split
    next => rfl
    next => rw [ih, egcdSubstitute]

/-- `egcd_bezout` as numbers: the gcd of two words is a word (R106). -/
theorem egcd_bezout_toNat {bits : Nat} (a b : Word bits) :
    (a.toNat * (egcd a b).1.toNat + b.toNat * (egcd a b).2.toNat) % 2 ^ bits = Nat.gcd a.toNat b.toNat := by
  have hgcd : Nat.gcd a.toNat b.toNat < 2 ^ bits := by
    obtain ha | ha := Nat.eq_zero_or_pos a.toNat
    · simpa [ha] using b.isLt
    · exact (Nat.gcd_le_left _ ha).trans_lt a.isLt
  have hbezout := congrArg BitVec.toNat (egcd_bezout a b)
  rwa [BitVec.toNat_add, BitVec.toNat_mul, BitVec.toNat_mul, ← Nat.add_mod, BitVec.toNat_ofNat,
    Nat.mod_eq_of_lt hgcd] at hbezout

/-! ### The negated inverse -/

/-- `B - 1` is the word `-1`. -/
theorem toNat_eq_max_iff {bits : Nat} {x : Word bits} : x.toNat = 2 ^ bits - 1 ↔ x = -1 := by
  have hmax : (-1 : Word bits) = BitVec.allOnes bits := BitVec.neg_one_eq_allOnes
  rw [hmax, ← BitVec.toNat_inj, BitVec.toNat_allOnes]

/-- At an odd word `n`, `minv n` is the only solution of `x * n = -1` (R109). -/
theorem minv_eq_iff {bits : Nat} {n : Word bits} (hn : n.toNat % 2 = 1) (x : Word bits) :
    minv n = x ↔ x * n = -1 := by
  have hminv := minv_mul n hn
  constructor
  · rintro rfl
    exact hminv
  · intro hx
    calc minv n = -(x * n) * minv n := by rw [hx]; ring
      _ = -(minv n * n) * x := by ring
      _ = x := by rw [hminv]; ring

/-- A factor of `-1` is odd. -/
theorem odd_of_mul_eq_neg_one {bits : Nat} (hb : 0 < bits) {x n : Word bits} (h : x * n = -1) : x.toNat % 2 = 1 := by
  have hmul := toNat_eq_max_iff.mpr h
  rw [BitVec.toNat_mul] at hmul
  have heven : 2 ∣ 2 ^ bits := dvd_pow_self 2 hb.ne'
  have hpos := Nat.two_pow_pos bits
  have hodd : (x.toNat * n.toNat) % 2 = 1 := by
    rw [← Nat.mod_mod_of_dvd _ heven, hmul]
    omega
  exact Nat.odd_iff.mp (Nat.odd_mul.mp (Nat.odd_iff.mpr hodd)).1

theorem minv_odd {bits : Nat} (hb : 0 < bits) {n : Word bits} (hn : n.toNat % 2 = 1) : (minv n).toNat % 2 = 1 :=
  odd_of_mul_eq_neg_one hb (minv_mul n hn)

/-- `minv` is its own inverse on the odd words: `x * n = -1` is symmetric (R111). -/
theorem minv_eq_comm {bits : Nat} {m n : Word bits} (hm : m.toNat % 2 = 1) (hn : n.toNat % 2 = 1) :
    minv n = m ↔ minv m = n := by
  rw [minv_eq_iff hn, minv_eq_iff hm, BitVec.mul_comm]

/-! ### The two commands -/

/-- EGCD with two destinations passes its check and writes both words of the pair (R107). -/
theorem exec_egcd_completes {rd rc : SReg} (hne : rd ≠ rc) (ra rb : SReg) {s : State} (hf : s.faulted = false) :
    exec (.egcd rd rc ra rb) s =
      .next ((s.writeS rd (egcd (s.readS ra) (s.readS rb)).1).writeS rc
        (egcd (s.readS ra) (s.readS rb)).2).complete := by
  rw [exec_egcd, execEgcd, if_neg hne]
  exact runCommand_completes hf

/-- After EGCD `s[rd]` and `s[rc]` hold the pair: the second write leaves the first alone (R107). -/
theorem exec_egcd_results {rd rc : SReg} (hne : rd ≠ rc) (ra rb : SReg) {s : State} (hf : s.faulted = false) :
    ∃ t, exec (.egcd rd rc ra rb) s = .next t ∧
      (t.readS rd).toNat = (egcd (s.readS ra) (s.readS rb)).1.toNat ∧
      (t.readS rc).toNat = (egcd (s.readS ra) (s.readS rb)).2.toNat := by
  have hx := (readS_writeS_ne (s.writeS rd _) hne (egcd (s.readS ra) (s.readS rb)).2).trans
    (readS_writeS_same s rd (egcd (s.readS ra) (s.readS rb)).1)
  have hy := readS_writeS_same (s.writeS rd (egcd (s.readS ra) (s.readS rb)).1) rc (egcd (s.readS ra) (s.readS rb)).2
  exact ⟨_, exec_egcd_completes hne ra rb hf, congrArg BitVec.toNat hx, congrArg BitVec.toNat hy⟩

theorem exec_minv (rd ra : SReg) (s : State) :
    exec (.minv rd ra) s =
      runCommand (.minv rd ra) s (oddCheck (s.readS ra)) (s.writeS rd (minv (s.readS ra))) := rfl

/-- Settles O38: `exec_egcd_completes`, with the one solution of the recursion (`eq_egcd_of_recursion`). -/
theorem egcdWritesThePairOfTheRecursion : Obligations.EgcdWritesThePairOfTheRecursion := by
  intro s rd rc ra rb e hf hzero hrec
  refine ⟨toNat_packCommand_rd_ra_rb_rc .egcd rd ra rb rc, fun hne => ?_⟩
  rw [eq_egcd_of_recursion hzero hrec]
  exact exec_egcd_completes hne ra rb hf

/-- Settles O40: `s[rd]` and `s[rc]` hold the pair (`exec_egcd_results`), which satisfies `egcd_bezout_toNat`. -/
theorem egcdResultsAreBezoutCoefficients : Obligations.EgcdResultsAreBezoutCoefficients := by
  intro s rd rc ra rb hf hne
  obtain ⟨t, hexec, hx, hy⟩ := exec_egcd_results hne ra rb hf
  refine ⟨t, hexec, ?_⟩
  rw [hx, hy]
  exact egcd_bezout_toNat (s.readS ra) (s.readS rb)

/-- Settles O41: the base case of R106, three rows in which `a` divides `b`, and three evaluations. -/
theorem egcdCornerCases : Obligations.EgcdCornerCases := by
  refine ⟨fun _ => egcd_zero, fun _ a ha => egcd_of_umod_eq_zero ha BitVec.zero_umod,
    fun _ a ha => egcd_of_umod_eq_zero ha BitVec.umod_self, fun p b => ?_, by decide, by decide, by decide⟩
  have hone : (1 : Word p.bits) ≠ 0 := fun h => (params_bits_pos p).ne' (BitVec.one_eq_zero_iff.mp h)
  exact egcd_of_umod_eq_zero hone BitVec.umod_one

/-- Settles O42: `egcdSubstitute_egcdQuotients` at the depth both forms use, with no quotient left to substitute. -/
theorem iterativeEuclidReturnsTheSamePair : Obligations.IterativeEuclidReturnsTheSamePair :=
  fun _ a b => egcdSubstitute_egcdQuotients a.toNat a b []

/-- Settles O43: the parity check decides; at an odd word the one solution is `minv` (`minv_eq_iff`). -/
theorem minvWritesTheNegatedInverseOrFaults : Obligations.MinvWritesTheNegatedInverseOrFaults := by
  intro s rd ra hf
  have hrun := exec_minv rd ra s
  refine ⟨toNat_packCommand_rd_ra .minv rd ra, fun hodd => ?_, fun heven hlegal => ?_⟩
  · rw [oddCheck_none hodd] at hrun
    exact ⟨minv (s.readS ra), toNat_minv_mul (params_bits_pos s.params) _ hodd,
      fun y hy => ((minv_eq_iff hodd y).mpr (toNat_eq_max_iff.mp hy)).symm, exec_completes hrun hf⟩
  · rw [oddCheck_some heven] at hrun
    exact exec_faults_of_legal hrun hf hlegal

/-- Settles O44: by `minv_eq_comm` the odd word that `minv` sends to `m` is `minv m`. -/
theorem minvIsABijectionOnOddWords : Obligations.MinvIsABijectionOnOddWords := by
  intro p
  have hbits := params_bits_pos p
  constructor
  · intro n hn
    exact ⟨toNat_minv_mul hbits n hn, minv_odd hbits hn⟩
  · intro m hm
    refine ⟨minv m, ⟨minv_odd hbits hm, (minv_eq_comm hm (minv_odd hbits hm)).mpr rfl⟩, ?_⟩
    rintro n ⟨hn, hminv⟩
    exact ((minv_eq_comm hm hn).mp hminv).symm

end Sys2Proof.Machine
end

section
/-!
Montgomery unit, the datapath (R118, R119): the accumulator keeps its `W` words, its second extra word 0 and its bound
`a + n` in every outer iteration, so that `datapathStep_spec` applies in each and the datapath follows the loop of R117.
-/

namespace Sys2Proof.Machine

/-- No `mc` matches the modulus 0. -/
theorem contextMatches.pos {bits n : Nat} {mc : Word bits} (h : contextMatches mc n) (hb : 0 < bits) : 0 < n := by
  refine Nat.pos_of_ne_zero fun hzero => ?_
  have hone := Nat.mod_eq_of_lt (Nat.one_lt_two_pow hb.ne')
  rw [contextMatches, hzero, Nat.mul_zero, Nat.zero_add, hone] at h
  exact one_ne_zero h

/-- One iteration of R117 keeps the accumulator below `a + n` (R119). -/
theorem redcStep_lt {bits a n acc : Nat} {mc : Word bits} (h : contextMatches mc n) (hacc : acc < a + n)
    (b : Word bits) : redcStep (acc + a * b.toNat) n mc < a + n := by
  obtain ⟨m, hm, hexact⟩ := redcStep_spec h (acc + a * b.toNat)
  refine Nat.lt_of_mul_lt_mul_left (a := 2 ^ bits) ?_
  calc 2 ^ bits * redcStep (acc + a * b.toNat) n mc = acc + a * b.toNat + m * n := hexact
    _ < (a + n) + a * b.toNat + m * n := by omega
    _ = a * (b.toNat + 1) + (m + 1) * n := by ring
    _ ≤ a * 2 ^ bits + 2 ^ bits * n := Nat.add_le_add (Nat.mul_le_mul_left a b.isLt) (Nat.mul_le_mul_right n hm)
    _ = 2 ^ bits * (a + n) := by ring

/-- The accumulator of R118 between two outer iterations (R119): `W` low words, `t[W+1] = 0`, and a value below the
bound. -/
structure AccBelow {bits : Nat} (w bound : Nat) (t : RedcAcc bits) : Prop where
  length_low : t.low.length = w
  extra_eq_zero : t.extra = 0
  value_lt : redcAccValue w t < bound

/-- A value below `2R` leaves the second extra word 0 (R119). -/
theorem extra_eq_zero_of_value_lt {bits w : Nat} (hb : 0 < bits) {t : RedcAcc bits}
    (h : redcAccValue w t < 2 ^ (w * bits) * 2) : t.extra = 0 := by
  have hhigh : t.top.toNat + 2 ^ bits * t.extra.toNat < 2 :=
    Nat.lt_of_mul_lt_mul_left ((Nat.le_add_left _ _).trans_lt h)
  have hbase : 2 ≤ 2 ^ bits := Nat.le_self_pow hb.ne' 2
  refine BitVec.eq_of_toNat_eq (Nat.eq_zero_of_not_pos fun hpos => ?_)
  have := Nat.le_mul_of_pos_right (2 ^ bits) hpos
  omega

theorem wordsValue_replicate_zero {bits : Nat} (count : Nat) :
    wordsValue (List.replicate count (0 : Word bits)) = 0 := by
  rw [← takeWords_nil, wordsValue_takeWords_nil]

/-- The accumulator starts at 0 (R118). -/
theorem accBelow_zero {bits : Nat} (w : Nat) {bound : Nat} (h : 0 < bound) :
    AccBelow w bound (⟨List.replicate w 0, 0, 0⟩ : RedcAcc bits) ∧
      redcAccValue w (⟨List.replicate w 0, 0, 0⟩ : RedcAcc bits) = 0 := by
  have hzero : redcAccValue w (⟨List.replicate w 0, 0, 0⟩ : RedcAcc bits) = 0 := by
    rw [redcAccValue, wordsValue_replicate_zero]
    simp
  exact ⟨⟨List.length_replicate, rfl, hzero.trans_lt h⟩, hzero⟩

/-- `T`, the `W + 1` words `t[0 .. W]`, is the whole accumulator (R118, R119). -/
theorem AccBelow.wordsValue_low_top {bits w bound : Nat} {t : RedcAcc bits} (h : AccBelow w bound t) :
    wordsValue (t.low ++ [t.top]) = redcAccValue w t := by
  simp [wordsValue_append, wordsValue, redcAccValue, h.length_low, h.extra_eq_zero]

section
variable {bits w : Nat} {a n : Wide bits (w + 1)} {mc : Word bits}

/-- `datapathStep_spec` with the invariant it needs, kept. -/
theorem datapathStep_below (hb : 0 < bits) (hmc : contextMatches mc n.value) (b : Word bits) {t : RedcAcc bits}
    (ht : AccBelow (w + 1) (a.value + n.value) t) :
    AccBelow (w + 1) (a.value + n.value) (datapathStep a.words n.words mc b t) ∧
      redcAccValue (w + 1) (datapathStep a.words n.words mc b t) =
        redcStep (redcAccValue (w + 1) t + a.value * b.toNat) n.value mc := by
  obtain ⟨hlow, hextra, hlt⟩ := ht
  obtain ⟨hlow', hvalue⟩ := datapathStep_spec hb a.length_eq n.length_eq hmc b hlow hextra
  have hlt' := hvalue.trans_lt (redcStep_lt hmc hlt b)
  have hfits : a.value + n.value ≤ 2 ^ ((w + 1) * bits) * 2 := by
    have ha := a.value_lt
    have hn := n.value_lt
    omega
  exact ⟨⟨hlow', extra_eq_zero_of_value_lt hb (hlt'.trans_le hfits), hlt'⟩, hvalue⟩

/-- The outer loop of R118 is the loop of R117. -/
theorem datapathLoop_below (hb : 0 < bits) (hmc : contextMatches mc n.value) (bs : List (Word bits)) {t : RedcAcc bits}
    (ht : AccBelow (w + 1) (a.value + n.value) t) :
    AccBelow (w + 1) (a.value + n.value) (datapathLoop a.words n.words mc bs t) ∧
      redcAccValue (w + 1) (datapathLoop a.words n.words mc bs t) =
        mmulLoop a.value n.value mc bs (redcAccValue (w + 1) t) := by
  induction bs generalizing t with
  | nil => exact ⟨ht, rfl⟩
  | cons b bs ih =>
    obtain ⟨hstep, hvalue⟩ := datapathStep_below hb hmc b ht
    rw [datapathLoop, mmulLoop, ← hvalue]
    exact ih hstep

end

/-- Settles O46: from the zero accumulator the two loops reach the same `T`, and the last subtraction is shared. -/
theorem wordLevelDatapathComputesTheProduct : Obligations.WordLevelDatapathComputesTheProduct := by
  intro bits w a b n mc hb hword
  have hmc := contextMatches_of_word hb hword
  have hn := hmc.pos hb
  obtain _ | w := w
  · have hlt := n.value_lt
    rw [Nat.zero_mul, Nat.pow_zero] at hlt
    omega
  · obtain ⟨hstart, hzero⟩ := accBelow_zero (bits := bits) (w + 1) (Nat.add_pos_right a.value hn)
    obtain ⟨hend, hvalue⟩ := datapathLoop_below hb hmc b.words hstart
    rw [datapathMmul, mmul, hend.wordsValue_low_top, hvalue, hzero, mmulT]

end Sys2Proof.Machine
end

section
/-!
Montgomery unit, the products (R117 to R124): a product with an operand below the modulus is the residue `x` with
`x * R = a * b`, from which the identity and the conversions are read off. MMUL has two checks, the parity of the
modulus and then `mc`; MCONV has the first of them.
-/

namespace Sys2Proof

/-- The word of a command with operands in `rd` and `rc` only (R51). -/
theorem toNat_packCommand_rd_rc (o : Opcode) (rd rc : Fin 8) :
    (packCommand o rd 0 0 rc 0).toNat = o.byte * 0x1000000 + rd.val * 0x100000 + rc.val * 0x100 := by
  simpa using toNat_packCommand_rd_ra_rb_rc o rd 0 0 rc

/-- The word of a command with operands in all five fields (R51, R52). -/
theorem toNat_packCommand_rd_ra_rb_rc_re (o : Opcode) (rd ra rb rc re : Fin 8) :
    (packCommand o rd ra rb rc (re.val * 2 ^ 4)).toNat =
      o.byte * 0x1000000 + rd.val * 0x100000 + ra.val * 0x10000 + rb.val * 0x1000 + rc.val * 0x100 +
        re.val * 0x10 :=
  toNat_packCommand o rd ra rb rc (by omega)

end Sys2Proof

namespace Sys2Proof.Machine

/-! ### Products modulo the modulus -/

section
variable {bits w : Nat} {n : Wide bits w}

/-- A modulus whose word 0 is odd is odd, so positive (R120). -/
theorem value_pos_of_word_zero_odd (hb : 0 < bits) (h : (n.word 0).toNat % 2 = 1) : 0 < n.value := by
  rw [Wide.word_zero_mod_two hb] at h
  omega

theorem value_fromWord_one (hb : 0 < bits) (hw : 0 < w) : (fromWord 1 : Wide bits w).value = 1 :=
  (value_fromWord hw 1).trans (BitVec.toNat_one hb)

/-- The conversion constant (R121): `R^2 mod n`. -/
theorem value_mconv_eq_radix_sq (hb : 0 < bits) (hw : 0 < w) (hn : 0 < n.value) :
    (mconv n).value = (2 ^ (w * bits)) ^ 2 % n.value := by
  rw [value_mconv hb hw n hn, ← pow_mul]
  congr 2
  ring

theorem mconv_lt (hb : 0 < bits) (hw : 0 < w) (hn : 0 < n.value) : (mconv n).value < n.value :=
  (value_mconv hb hw n hn).trans_lt (Nat.mod_lt _ hn)

theorem mconv_modEq (hb : 0 < bits) (hw : 0 < w) (hn : 0 < n.value) :
    (mconv n).value ≡ 2 ^ (w * bits) * 2 ^ (w * bits) [MOD n.value] := by
  rw [value_mconv_eq_radix_sq hb hw hn, sq]
  exact Nat.mod_modEq _ _

/-- A reduced product is known from `a * b` modulo `n`: the factor `R` cancels (R119). -/
theorem value_mmul_of_modEq {mc : Word bits} (hmc : contextMatches mc n.value) (hodd : n.value % 2 = 1)
    {a b : Wide bits w} (hab : a.value < n.value ∨ b.value < n.value) {x : Nat}
    (hx : a.value * b.value ≡ x * 2 ^ (w * bits) [MOD n.value]) : (mmul a b n mc).value = x % n.value := by
  have hn : 0 < n.value := by omega
  have hcancel : (mmul a b n mc).value ≡ x [MOD n.value] :=
    Nat.ModEq.cancel_right_of_coprime (radix_coprime hodd) ((mmul_modEq hmc hn a b).trans hx)
  exact (Nat.mod_eq_of_lt (mmul_lt hmc hn a b hab)).symm.trans hcancel

end

/-- Settles O47: four products, each with an operand below `n`, whose operands make up `x * R` modulo `n`. -/
theorem montgomeryIdentityAndConversions : Obligations.MontgomeryIdentityAndConversions := by
  intro p a n mc hodd hword
  have hb := params_bits_pos p
  have hn : 0 < n.value := by omega
  have hmc := contextMatches_of_word hb hword
  have hone := value_fromWord_one hb p.words_pos
  have hconv := mconv_modEq hb p.words_pos hn
  have hconvlt := mconv_lt hb p.words_pos hn
  have hR : (mmul (mconv n) (fromWord 1) n mc).value = p.radix % n.value := by
    refine value_mmul_of_modEq hmc hodd (.inl hconvlt) ?_
    rw [hone, Nat.mul_one]
    exact hconv
  have hin : (mmul a (mconv n) n mc).value = a.value * p.radix % n.value := by
    refine value_mmul_of_modEq hmc hodd (.inr hconvlt) ?_
    rw [Nat.mul_assoc]
    exact hconv.mul_left _
  refine ⟨hR, fun ha => ?_, hin, ?_⟩
  · rw [← Nat.mod_eq_of_lt ha]
    refine value_mmul_of_modEq hmc hodd (.inl ha) ?_
    rw [hR]
    exact (Nat.mod_modEq _ _).mul_left _
  · refine value_mmul_of_modEq hmc hodd (.inl (mmul_lt hmc hn a _ (.inr hconvlt))) ?_
    rw [hone, Nat.mul_one, hin]
    exact Nat.mod_modEq _ _

/-! ### The two commands -/

theorem exec_mmul (rd ra rb rc : VReg) (re : SReg) (s : State) :
    exec (.mmul rd ra rb rc re) s =
      runCommand (.mmul rd ra rb rc re) s
        (firstFault (oddCheck ((s.readV rc).word 0)) (mcCheck (s.readS re) ((s.readV rc).word 0)))
        (s.writeV rd (mmul (s.readV ra) (s.readV rb) (s.readV rc) (s.readS re))) := rfl

theorem exec_mconv (rd rc : VReg) (s : State) :
    exec (.mconv rd rc) s =
      runCommand (.mconv rd rc) s (oddCheck ((s.readV rc).word 0)) (s.writeV rd (mconv (s.readV rc))) := rfl

/-- Settles O48: the parity check decides; an odd modulus is positive, where `mconv` is `R^2 mod n`. -/
theorem mconvWritesRSquaredModNOrFaults : Obligations.MconvWritesRSquaredModNOrFaults := by
  intro s rd rc hf
  have hrun := exec_mconv rd rc s
  refine ⟨toNat_packCommand_rd_rc .mconv rd rc, fun hodd => ?_, fun heven hlegal => ?_⟩
  · rw [oddCheck_none hodd] at hrun
    have hb := params_bits_pos s.params
    have hn := value_pos_of_word_zero_odd hb hodd
    exact ⟨mconv (s.readV rc), value_mconv_eq_radix_sq hb s.params.words_pos hn, exec_completes hrun hf⟩
  · rw [oddCheck_some heven] at hrun
    exact exec_faults_of_legal hrun hf hlegal

/-- Settles O45: the first check that fails decides (R160); past both, `mmulT` is the `T` of R117 with the bounds of
R119, and `mmul` is `T` less at most one `n`. -/
theorem mmulWritesTheMontgomeryProductOrFaults : Obligations.MmulWritesTheMontgomeryProductOrFaults := by
  intro s rd ra rb rc re hf
  have hrun := exec_mmul rd ra rb rc re s
  refine ⟨toNat_packCommand_rd_ra_rb_rc_re .mmul rd ra rb rc re, fun heven hlegal => ?_,
    fun hodd hbad hlegal => ?_, fun hodd hword => ?_⟩
  · rw [oddCheck_some heven] at hrun
    exact exec_faults_of_legal hrun hf hlegal
  · rw [oddCheck_none hodd, mcCheck_some hbad] at hrun
    exact exec_faults_of_legal hrun hf hlegal
  · rw [oddCheck_none hodd, mcCheck_none hword] at hrun
    have hb := params_bits_pos s.params
    have hmc := contextMatches_of_word hb hword
    have hn := value_pos_of_word_zero_odd hb hodd
    obtain ⟨m, hm, hT⟩ := mmulT_spec hmc (s.readV ra) (s.readV rb)
    exact ⟨mmul (s.readV ra) (s.readV rb) (s.readV rc) (s.readS re), _, m, hm, hT, mmulT_lt hmc hn _ _,
      value_mmul hmc hn _ _, mmul_modEq hmc hn _ _, mmul_lt hmc hn _ _, exec_completes hrun hf⟩

end Sys2Proof.Machine
end

section
/-!
Modular exponentiation (R130 to R133): POWM has one check, the parity of the modulus, and past it `powm` is the power
modulo `n`. With exponent two it is the host program's square: `x * x * R^-1`, then the way back by `R^2`.
-/

namespace Sys2Proof.Machine

theorem exec_powm (rd ra rb rc : VReg) (s : State) :
    exec (.powm rd ra rb rc) s =
      runCommand (.powm rd ra rb rc) s (oddCheck ((s.readV rc).word 0))
        (s.writeV rd (powm (s.readV ra) (s.readV rb) (s.readV rc))) := rfl

/-- Settles O49: the parity check decides; a modulus whose word 0 is odd is odd, where `powm` is the power modulo it. -/
theorem powmWritesThePowerModNOrFaults : Obligations.PowmWritesThePowerModNOrFaults := by
  intro s rd ra rb rc hf
  have hrun := exec_powm rd ra rb rc s
  refine ⟨toNat_packCommand_rd_ra_rb_rc .powm rd ra rb rc, fun hodd => ?_, fun heven hlegal => ?_⟩
  · rw [oddCheck_none hodd] at hrun
    have hb := params_bits_pos s.params
    rw [Wide.word_zero_mod_two hb] at hodd
    exact ⟨powm (s.readV ra) (s.readV rb) (s.readV rc), value_powm hb s.params.words_pos _ _ _ hodd,
      exec_completes hrun hf⟩
  · rw [oddCheck_some heven] at hrun
    exact exec_faults_of_legal hrun hf hlegal

/-- A product brought back by the conversion constant is the plain product modulo `n` (R121, R142). -/
theorem value_mmul_mmul_mconv {bits w : Nat} {n : Wide bits w} {mc : Word bits} (hb : 0 < bits) (hw : 0 < w)
    (hmc : contextMatches mc n.value) (hodd : n.value % 2 = 1) (a b : Wide bits w) :
    (mmul (mmul a b n mc) (mconv n) n mc).value = a.value * b.value % n.value := by
  have hn : 0 < n.value := by omega
  refine value_mmul_of_modEq hmc hodd (.inr (mconv_lt hb hw hn)) ?_
  calc (mmul a b n mc).value * (mconv n).value
      ≡ (mmul a b n mc).value * (2 ^ (w * bits) * 2 ^ (w * bits)) [MOD n.value] := (mconv_modEq hb hw hn).mul_left _
    _ = (mmul a b n mc).value * 2 ^ (w * bits) * 2 ^ (w * bits) := (Nat.mul_assoc ..).symm
    _ ≡ a.value * b.value * 2 ^ (w * bits) [MOD n.value] := (mmul_modEq hmc hn a b).mul_right _

/-- Settles O50: both sides have the value `x^2 mod n`, and a wide value is known from its number. The premise
`x < n` is not needed: the conversion constant is already below `n`. -/
theorem powmByTwoIsASquareByTwoMmuls : Obligations.PowmByTwoIsASquareByTwoMmuls := by
  intro p x e n mc hodd hword _ he
  have hb := params_bits_pos p
  apply Wide.eq_of_value
  calc (mmul (mmul x x n mc) (mconv n) n mc).value
      = x.value * x.value % n.value :=
        value_mmul_mmul_mconv hb p.words_pos (contextMatches_of_word hb hword) hodd x x
    _ = x.value ^ e.value % n.value := by rw [he, sq]
    _ = (powm x e n).value := (value_powm hb p.words_pos x e n hodd).symm

end Sys2Proof.Machine
end

section
/-!
The faulted state (R151 to R156, R162, R170): only `RESET` leaves it, a decoded command enters it only with a cause of
its own row, and a block with nothing to perform stays as it is.
-/

namespace Sys2Proof.Machine

/-- One step with no operation pending (R162). -/
theorem step_nil {s : State} (h : s.port = []) : step s = .next s := by
  rw [step, h]

/-- `F` is a bit of `FSTAT` (R18). -/
theorem SameCsrs.faulted {s t : State} (h : SameCsrs s t) : t.faulted = s.faulted := by
  rw [State.faulted, State.faulted, h.fstat]

/-- Every port operation but `RESET` leaves a faulted block faulted (R155, R156). -/
theorem portStep_keeps_faulted {s t : State} {op : PortOp s.params.bits} (hf : s.faulted = true) (hreset : op ≠ .reset)
    (h : portStep s op = .next t) : t.faulted = true := by
  obtain ⟨cmd, -, hissue⟩ | ⟨hop, -⟩ | hsame | hfault := portStep_csrs h
  · rw [portIssue_of_faulted cmd hf] at hissue
    cases hissue
    exact hf
  · exact absurd hop hreset
  · exact hsame.faulted.trans hf
  · exact hfault.faulted.trans (faulted_raiseFault .portAccess 0 s)

/-- Settles O8: an idle block stays as it is, and every operation but `RESET` keeps it faulted
(`portStep_keeps_faulted`). -/
theorem onlyResetLeavesTheFaultedState : Obligations.OnlyResetLeavesTheFaultedState := by
  intro s t hf h ht
  cases hport : s.port with
  | nil =>
    rw [step_nil hport] at h
    cases h
    simp [hf] at ht
  | cons op rest =>
    rw [step_cons hport] at h
    by_cases hreset : op = .reset
    · exact ⟨rest, by rw [hreset]⟩
    · have hkept := portStep_keeps_faulted (s := takeOp s rest) hf hreset h
      simp [hkept] at ht

/-- The cause recorded by a first fault is the one raised (R151, R153). -/
theorem statusCause_raiseFault {s : State} (hs : s.csrsLegal = true) (hf : s.faulted = false) (c : Cause)
    (word : BitVec 32) : statusCause (raiseFault c word s).fstat = c.code := by
  obtain ⟨-, -, hcause⟩ := fstat_fields_of_cause c
  rw [raiseFault_of_legal hs hf]
  exact hcause

/-- Settles O21: a command that leaves the block faulted took the fault entry with a cause of its own (`exec_next`), and
`ILLEGAL_COMMAND` is no cause of a well-formed one. -/
theorem commandsRaiseOnlyTheirCauses : Obligations.CommandsRaiseOnlyTheirCauses := by
  intro i s t hwf hs hf h ht
  obtain ⟨hf', -⟩ | ⟨-, c, rfl, hcause⟩ | ⟨-, v', s', flags', rfl, -⟩ := exec_next h
  · simp [hf] at hf'
  · rw [statusCause_raiseFault hs hf]
    obtain ⟨-, hbad⟩ | ⟨rfl, hop⟩ | ⟨rfl, hop⟩ | ⟨rfl, hop⟩ := hcause
    · simp [hwf] at hbad
    · exact .inl ⟨hop, rfl⟩
    · exact .inr (.inl ⟨hop, rfl⟩)
    · exact .inr (.inr ⟨hop, rfl⟩)
  · exact absurd (hf.symm.trans ht) (by decide)

/-- Settles O15: the step of an empty queue. -/
theorem idleBlockKeepsItsState : Obligations.IdleBlockKeepsItsState :=
  fun _ => step_nil

end Sys2Proof.Machine
end
